-- ==== Sys2Proof/Syntax.lean ====
section
/-! DEFINITION. The commands of the engine: one constructor per row of spec/opcode_table.json, in the table's order
(30_encoding.md R102). No command carries an operand: all operands are implicit (R103). -/

namespace Sys2Proof

/-- A command (30_encoding.md R102). -/
inductive Instr where
  /-- `NOP`, OP 0x0 (40_control.md R136). -/
  | nop
  /-- `CMAC`, OP 0x1 (41_cmac.md R166). -/
  | cmac
  /-- `S2V_INIT`, OP 0x2 (42_s2v.md R201). -/
  | s2vInit
  /-- `S2V_AD`, OP 0x3 (42_s2v.md R202). -/
  | s2vAd
  /-- `S2V_NONCE`, OP 0x4 (42_s2v.md R203). -/
  | s2vNonce
  /-- `S2V_FINAL`, OP 0x5 (42_s2v.md R205). -/
  | s2vFinal
  /-- `CTR`, OP 0x6 (43_siv.md R234). -/
  | ctr
  /-- `SIV_ENC`, OP 0x7 (43_siv.md R235). -/
  | sivEnc
  /-- `SIV_DEC`, OP 0x8 (43_siv.md R236). -/
  | sivDec
  /-- `DBL`, OP 0x9 (41_cmac.md R167). -/
  | dbl
  /-- `XOR`, OP 0xA (41_cmac.md R168). -/
  | xor
  /-- `PAD`, OP 0xB (41_cmac.md R169). -/
  | pad
  /-- `MASK`, OP 0xC (43_siv.md R233). -/
  | mask
  /-- `ZEROIZE`, OP 0xD (40_control.md R137). -/
  | zeroize
  deriving DecidableEq, Repr

end Sys2Proof
end

