-- ==== Sys2Proof/Word.lean ====
section
/-! DEFINITION. The machine's words: a byte, the 32-bit bus word, the 16-byte block read as a 128-bit integer
(00_scope.md R9, R10, R11), and the type of the one cryptographic primitive (00_scope.md R8). -/

namespace Sys2Proof

/-- One byte of a byte string (00_scope.md R9). -/
abbrev Byte := BitVec 8

/-- One bus word, a control register or a command word (20_memory.md R61, 30_encoding.md R100). -/
abbrev Word := BitVec 32

/-- A 16-byte block `b`, held as the integer `int(b)`: byte 0 is the most significant one, bit `j` of the block is
bit `j` of the vector (00_scope.md R10, R11; 20_memory.md R82). -/
abbrev Block := BitVec 128

/-- The type of `AES_Enc`: a key (a byte string of 16 or 32 bytes) and a block give a block (00_scope.md R8). -/
abbrev BlockCipher := List Byte → Block → Block

end Sys2Proof
end

