-- ==== Sys2Proof/Machine/State.lean ====
section
/-! DEFINITION. The state of the engine, as plain data: every element of 10_state.md section 1, and two fields of the
model's own (`events`, `resp`). The reset state is 70_reset_and_hazards.md R310. -/

namespace Sys2Proof.Machine

/-- A byte buffer, sparse: the bytes that are not zero, by rising byte offset. Its canonical form is `Memory.wf`; a
byte that is not listed reads as `Memory.unlisted`, zero (10_state.md R39, R40; log entry 7). -/
abbrev Memory := List Host.Cell

/-- STATUS.ERRCODE (60_exceptions.md R270). The codes 7 to 15 are never produced (93_implementation_defined.md I18). -/
inductive ErrCode where
  /-- 0, NONE: the command succeeded. -/
  | noError
  /-- 1, ILLEGAL: the word is no legal encoding (R274). -/
  | illegal
  /-- 2, CONFIG: KEYSIZE is reserved (R271). -/
  | config
  /-- 3, SEQUENCE: not allowed in this PHASE (R275). -/
  | sequence
  /-- 4, LENGTH: LEN is out of range (R276). -/
  | length
  /-- 5, MALFORMED: the SIV_DEC input is shorter than 16 bytes (R272). -/
  | malformed
  /-- 6, AUTH: the recomputed SIV differs (R273). -/
  | auth
  deriving DecidableEq, Repr

/-- PHASE (10_state.md R38). The value 3 is never held. -/
inductive Phase where
  /-- 0: no chain is open. -/
  | idle
  /-- 1: a chain is open and associated data may follow. -/
  | ad
  /-- 2: a non-empty nonce has been folded in. -/
  | nonceDone
  deriving DecidableEq, Repr

/-- The kind of a bus transaction (20_memory.md R61). -/
inductive BusKind where
  /-- A read of one word. -/
  | read
  /-- A write of the strobed lanes of one word. -/
  | write
  deriving DecidableEq, Repr

/-- A bus transaction `(kind, addr[13:0], wdata[31:0], wstrb[3:0])` (20_memory.md R61). -/
structure Transaction where
  kind : BusKind
  addr : BitVec 14
  wdata : Word
  wstrb : BitVec 4
  deriving DecidableEq, Repr

/-- What a transaction answers: `rdata` (zero for a write, which answers no data) and `err` (20_memory.md R61). -/
structure BusResponse where
  rdata : Word
  err : Bool
  deriving DecidableEq, Repr

/-- A step of one of the three agents (40_control.md R130). -/
inductive Event where
  /-- HOST: one bus transaction. -/
  | host (t : Transaction)
  /-- ENGINE: its completion step, if it is enabled. -/
  | engine
  /-- RESET: the external event. -/
  | reset
  deriving DecidableEq, Repr

/-- No step of this machine faults: a command error and a bus error are both outcomes the machine goes on from
(60_exceptions.md R278, R280), no word is undecodable (30_encoding.md R101) and no element is left unspecified
(70_reset_and_hazards.md R310). The type has no constructor, so the kernel knows it (log entry 10, safe). -/
inductive Fault
  deriving DecidableEq, Repr

/-- Why a command has no meaning in the model. -/
inductive Refusal where
  /-- Raised by an arm of `exec` for a command whose meaning is not written; no arm raises it now. Safe: the machine
  stops where the hardware goes on. -/
  | notModelled (mnemonic : String)
  deriving DecidableEq, Repr

/-- The state (10_state.md section 1). ID and CAPS are constants (R41) and `irq` is a function of the state (R44), so
they are definitions, not fields. -/
structure State where
  /-- CTRL.IRQ_EN (R30). -/
  irqEn : Bool
  /-- CTRL.KEYSIZE (R30); 2 and 3 are reserved and are stored as written. -/
  keysize : BitVec 2
  /-- STATUS.BUSY (R31). -/
  busy : Bool
  /-- STATUS.DONE (R31). -/
  done : Bool
  /-- STATUS.OUT_VALID (R31). -/
  outValid : Bool
  /-- STATUS.CMD_OVR (R31). -/
  cmdOvr : Bool
  /-- STATUS.BUS_VIOL (R31). -/
  busViol : Bool
  /-- STATUS.ERRCODE (R31). -/
  errcode : ErrCode
  /-- PHASE, read as STATUS.S2V_PHASE (R38). -/
  phase : Phase
  /-- LEN (R32). -/
  len : Word
  /-- OUTLEN (R33). -/
  outlen : Word
  /-- KEY[0..64) (R34). -/
  key : Vector Byte 64
  /-- IV[0..16) (R35). -/
  iv : Block
  /-- RESULT[0..16) (R36). -/
  result : Block
  /-- ACC[0..16) (R37). -/
  acc : Block
  /-- IBUF[0..BUF_BYTES) (R39). -/
  ibuf : Memory
  /-- OBUF[0..BUF_BYTES+16) (R40). -/
  obuf : Memory
  /-- PENDING (R42), hidden from the host. -/
  pending : Word
  /-- The model's own field: the steps that other agents and the scheduler still have in store, oldest first (log
  entry 1). -/
  events : List Event
  /-- The model's own field: the response of the last bus transaction, none before the first one (log entry 6). -/
  resp : Option BusResponse
  deriving DecidableEq, Repr

/-- The state right after reset (70_reset_and_hazards.md R310). The two fields of the model's own are empty (log
entries 1 and 6). -/
def State.reset : State where
  irqEn := false
  keysize := 0#2
  busy := false
  done := false
  outValid := false
  cmdOvr := false
  busViol := false
  errcode := .noError
  phase := .idle
  len := 0#32
  outlen := 0#32
  key := Vector.replicate 64 0#8
  iv := 0#128
  result := 0#128
  acc := 0#128
  ibuf := []
  obuf := []
  pending := 0#32
  events := []
  resp := none

end Sys2Proof.Machine
end

