-- ==== Sys2Proof/Machine/Ops.lean ====
section
/-! DEFINITION. The shared operations: the sparse byte buffers, the bytes of a block and of a bus word, issuing a
command, taking a command error and completing (20_memory.md R64, R65; 40_control.md R131, R133, R135; 42_s2v.md R207). -/

namespace Sys2Proof.Machine

/-! ### Byte buffers -/

/-- What a byte that is not listed reads as: zero, the reset contents of IBUF and OBUF (10_state.md R39, R40). -/
def Memory.unlisted : Byte := 0#8

/-- Reading one byte. -/
def Memory.read : Memory → Nat → Byte
  | [], _ => Memory.unlisted
  | (b, v) :: m, a => if a = b then v else Memory.read m a

/-- Writing one byte, keeping the canonical form: writing what an unlisted byte reads as removes the entry. -/
def Memory.write : Memory → Nat → Byte → Memory
  | [], a, v => if v = Memory.unlisted then [] else [(a, v)]
  | (b, w) :: m, a, v =>
    if a < b then if v = Memory.unlisted then (b, w) :: m else (a, v) :: (b, w) :: m
    else if a = b then if v = Memory.unlisted then m else (a, v) :: m
    else (b, w) :: Memory.write m a v

/-- Offsets rise strictly from `lo` on, and no entry equals what an unlisted byte reads as. -/
def Memory.wfFrom (lo : Nat) : Memory → Bool
  | [] => true
  | (a, v) :: m => decide (lo ≤ a) && (v != Memory.unlisted) && Memory.wfFrom (a + 1) m

/-- The canonical form. -/
def Memory.wf (m : Memory) : Bool := Memory.wfFrom 0 m

/-- Every listed offset is below `n`. -/
def Memory.below (n : Nat) (m : Memory) : Bool := m.all fun c => decide (c.1 < n)

/-- The `n` bytes from offset `a` on. -/
def readBytes (m : Memory) (a n : Nat) : List Byte := (List.range n).map fun i => Memory.read m (a + i)

/-- Storing a byte string from offset `a` on. -/
def storeBytes (m : Memory) (a : Nat) : List Byte → Memory
  | [] => m
  | b :: bs => storeBytes (Memory.write m a b) (a + 1) bs

/-! ### Bytes of a block and of a word -/

/-- `blk` of a byte string: its bytes read as one big-endian integer (00_scope.md R10). -/
def blockOfBytes (bs : List Byte) : Block := bs.foldl (fun acc b => (acc <<< 8) ||| b.setWidth 128) 0#128

/-- Byte `i` of a block; byte 0 is the most significant one (00_scope.md R10, R11). -/
def blockByte (x : Block) (i : Nat) : Byte := x.extractLsb' (8 * (15 - i)) 8

/-- The 16 bytes of a block, byte 0 first. -/
def bytesOfBlock (x : Block) : List Byte := (List.range 16).map (blockByte x)

/-- A block with byte `i` replaced. -/
def setBlockByte (x : Block) (i : Nat) (b : Byte) : Block :=
  (x &&& ~~~(0xFF#128 <<< (8 * (15 - i)))) ||| (b.setWidth 128 <<< (8 * (15 - i)))

/-- The bytes of a string in a string: `s[a..b)` (00_scope.md R9). -/
def slice (s : List Byte) (a b : Nat) : List Byte := (s.drop a).take (b - a)

/-- Bytewise exclusive-or of two strings of equal length (41_cmac.md R161). -/
def xorBytes (s t : List Byte) : List Byte := List.zipWith (· ^^^ ·) s t

/-- Byte lane `j` of a bus word: bits `[8j+7:8j]` (20_memory.md R61). -/
def wordByte (w : Word) (j : Nat) : Byte := w.extractLsb' (8 * j) 8

/-- The bus word whose lane `j` is `f j` (20_memory.md R64). -/
def laneWord (f : Nat → Byte) : Word := f 3 ++ f 2 ++ f 1 ++ f 0

/-- The per-lane merge of a write into a control register (20_memory.md R65). -/
def mergeLanes (old new : Word) (wstrb : BitVec 4) : Word :=
  laneWord fun j => if wstrb.getLsbD j then wordByte new j else wordByte old j

/-- The per-lane write into a byte-string region: each strobed lane `j` sets byte `base + j` (20_memory.md R64, R65). -/
def writeLanes {α : Type} (set : α → Nat → Byte → α) (base : Nat) (w : Word) (wstrb : BitVec 4) (x : α) : α :=
  [0, 1, 2, 3].foldl (fun x j => if wstrb.getLsbD j then set x (base + j) (wordByte w j) else x) x

/-! ### The lifecycle of a command -/

/-- Issue: what a CMD write `w` does while BUSY = 0 (40_control.md R131). It also clears the error code of the last
command, which is all there is of a return from an error (60_exceptions.md R279). -/
def issue (w : Word) (s : State) : State :=
  { s with
    pending := w
    busy := true
    done := false
    errcode := .noError
    outValid := false
    outlen := 0#32
    result := 0#128
    obuf := [] }

/-- Taking a command error: the error outcome sets ERRCODE and nothing else (40_control.md R135, 60_exceptions.md R278). -/
def takeError (e : ErrCode) (s : State) : State := { s with errcode := e }

/-- The end of every completion step: BUSY falls and DONE rises (40_control.md R133). -/
def finish (s : State) : State := { s with busy := false, done := true }

/-- Closing the S2V chain: PHASE and ACC as no chain has them (42_s2v.md R200). -/
def closeChain (s : State) : State := { s with phase := .idle, acc := 0#128 }

/-- Chain abort: an open chain is closed (42_s2v.md R207). -/
def abortChain (s : State) : State := if s.phase = .idle then s else closeChain s

end Sys2Proof.Machine
end

