-- ==== Sys2Proof/Machine/Crypto.lean ====
section
/-! DEFINITION. The functions the commands compute (41_cmac.md section 1, 42_s2v.md R204 and R206, 43_siv.md
section 1). Each takes the block cipher as an argument; the commands give it `Config.aesEnc`. -/

namespace Sys2Proof.Machine

/-- `dbl`, doubling in GF(2^128) (41_cmac.md R160). -/
def dbl (x : Block) : Block := if x.getLsbD 127 then (x <<< 1) ^^^ 0x87#128 else x <<< 1

/-- `pad`, the 10* padding of a string of at most 15 bytes (41_cmac.md R162; longer strings never reach it, log
entry 14). -/
def pad (m : List Byte) : Block := blockOfBytes (m ++ 0x80#8 :: List.replicate (15 - m.length) 0#8)

/-- The subkeys `(L, K1, K2)` (41_cmac.md R163). -/
def subkeys (enc : BlockCipher) (k : List Byte) : Block × Block × Block :=
  let l := enc k 0#128
  let k1 := dbl l
  let k2 := dbl k1
  (l, k1, k2)

/-- Block `i` of a message: `M[16i .. 16(i+1))`. -/
def msgBlock (m : List Byte) (i : Nat) : Block := blockOfBytes (slice m (16 * i) (16 * (i + 1)))

/-- The last block of a message is complete: its length is a nonzero multiple of 16 (41_cmac.md R164). -/
def lastComplete (m : List Byte) : Bool := decide (0 < m.length) && decide (m.length % 16 = 0)

/-- The number of CBC-MAC blocks (41_cmac.md R164). -/
def blockCount (m : List Byte) : Nat := if lastComplete m then m.length / 16 else m.length / 16 + 1

/-- `M_last`: the complete last block under K1, or the padded partial one under K2 (41_cmac.md R164). -/
def lastBlock (k1 k2 : Block) (m : List Byte) : Block :=
  let n := blockCount m
  if lastComplete m then msgBlock m (n - 1) ^^^ k1
  else pad (slice m (16 * (n - 1)) m.length) ^^^ k2

/-- `CMAC(k, M)` (41_cmac.md R164). -/
def cmac (enc : BlockCipher) (k : List Byte) (m : List Byte) : Block :=
  let ks := subkeys enc k
  let x := (List.range (blockCount m - 1)).foldl (fun x i => enc k (x ^^^ msgBlock m i)) 0#128
  enc k (x ^^^ lastBlock ks.2.1 ks.2.2 m)

/-- The value a fresh S2V chain starts from: `CMAC(k, 0^128)` (42_s2v.md R201). -/
def s2vStart (enc : BlockCipher) (k : List Byte) : Block := cmac enc k (List.replicate 16 0#8)

/-- One fold of a string into the accumulator: `dbl(D) ⊕ CMAC(k, s)` (42_s2v.md R202). -/
def s2vFold (enc : BlockCipher) (k : List Byte) (d : Block) (str : List Byte) : Block := dbl d ^^^ cmac enc k str

/-- `T`: the payload with `D` xored into its last 16 bytes, or the padded short payload under `dbl(D)` (42_s2v.md R204). -/
def s2vTail (d : Block) (p : List Byte) : List Byte :=
  let n := p.length
  if 16 ≤ n then slice p 0 (n - 16) ++ xorBytes (slice p (n - 16) n) (bytesOfBlock d)
  else bytesOfBlock (dbl d ^^^ pad p)

/-- `s2v_final(k, D, P)` (42_s2v.md R204). -/
def s2vFinal (enc : BlockCipher) (k : List Byte) (d : Block) (p : List Byte) : Block := cmac enc k (s2vTail d p)

/-- The source's `S2V(k, [s_1, ..., s_m], P)` (42_s2v.md R206). -/
def s2v (enc : BlockCipher) (k : List Byte) (strs : List (List Byte)) (p : List Byte) : Block :=
  s2vFinal enc k (strs.foldl (s2vFold enc k) (s2vStart enc k)) p

/-- `mask(V)`: bits 63 and 31 cleared (43_siv.md R230, the integer form). -/
def mask (v : Block) : Block := v &&& ~~~(0x00000000000000008000000080000000#128)

/-- `ctrblk(C0, i)`: the whole block counts, big-endian, modulo 2^128 (43_siv.md R231). -/
def counterBlock (c0 : Block) (i : Nat) : Block := c0 + BitVec.ofNat 128 i

/-- `CTR(k, C0, X)`; a short last block takes the leftmost keystream bytes (43_siv.md R232). -/
def ctr (enc : BlockCipher) (k : List Byte) (c0 : Block) (x : List Byte) : List Byte :=
  (List.range ((x.length + 15) / 16)).flatMap fun i =>
    let j := min 16 (x.length - 16 * i)
    xorBytes (slice x (16 * i) (16 * i + j)) ((bytesOfBlock (enc k (counterBlock c0 i))).take j)

/-- `diff` of SIV_DEC: the OR of the 16 byte differences, with no early exit (43_siv.md R236). -/
def tagDiff (v v' : Block) : Byte :=
  (List.range 16).foldl (fun d i => d ||| (blockByte v i ^^^ blockByte v' i)) 0#8

end Sys2Proof.Machine
end

