-- ==== Sys2Proof/Config.lean ====
section
/-! DEFINITION. What an implementation of the engine fixes and the spec leaves open: the block cipher and the
buffer size (00_scope.md R7, R8). Both are constants with no body, so a claim holds for every choice. -/

namespace Sys2Proof

/-- `AES_Enc`, the parameter of 00_scope.md R8: a total function of the key and the block, of which nothing else is
assumed. OPEN in the spec (92_eei_decisions.md D31); log entry 4, safe. -/
opaque Config.aesEnc : BlockCipher

/-- The choice behind `BUF_BYTES`. OPEN in the spec (92_eei_decisions.md D18); log entry 3, safe. -/
opaque Config.bufChoice : Nat

/-- `BUF_BYTES`, the capacity of IBUF: a multiple of 16 from 16 to 4096, and every such number is the value for some
choice (00_scope.md R7). -/
def bufBytes : Nat := 16 * (Config.bufChoice % 256 + 1)

/-- The capacity of OBUF: `BUF_BYTES + 16` (00_scope.md R7, 10_state.md R40). -/
def obufBytes : Nat := bufBytes + 16

end Sys2Proof
end

