-- ==== Sys2Proof/WellFormed.lean ====
section
/-! DEFINITION. Well-formedness. A command has no operand that could be out of range, so every term of `Instr` is
well formed; what can be ill formed is the 32-bit word that is to stand for one (30_encoding.md R100, R105). -/

namespace Sys2Proof

/-- Every command is well formed: the word carries no register number and no immediate (30_encoding.md R100). -/
def Instr.wellFormed : Instr → Bool
  | .nop | .cmac | .s2vInit | .s2vAd | .s2vNonce | .s2vFinal | .ctr | .sivEnc | .sivDec
  | .dbl | .xor | .pad | .mask | .zeroize => true

/-- The check of the ZERO field: bits 31:4 are zero (30_encoding.md R100). -/
def zeroFieldClear (w : Word) : Bool := w.extractLsb' 4 28 == 0#28

/-- The check of the OP field: it is none of the reserved values 0xE and 0xF (30_encoding.md R105). -/
def opAssigned (w : Word) : Bool := !(w.extractLsb' 0 4 == 0xE#4 || w.extractLsb' 0 4 == 0xF#4)

/-- A legal command word: both checks hold (30_encoding.md R105). -/
def wordLegal (w : Word) : Bool := zeroFieldClear w && opAssigned w

end Sys2Proof
end

