-- ==== Sys2Proof/Decode.lean ====
section
/-! DEFINITION. Decoding a command word and encoding a command (30_encoding.md R100 to R102, R105). Decoding is total
on the 32-bit word and rejects by name. -/

namespace Sys2Proof

/-- Why a word is ILLEGAL (30_encoding.md R105): the two kinds the rule names. Both end with ERRCODE = ILLEGAL. -/
inductive Illegal where
  /-- A bit of 31:4 is set. -/
  | nonzeroUpperBits
  /-- OP is 0xE or 0xF. -/
  | reservedOpcode
  deriving DecidableEq, Repr

/-- The opcode of a command, bits 3:0 of its word (30_encoding.md R102). -/
def opcode : Instr → BitVec 4
  | .nop => 0x0#4
  | .cmac => 0x1#4
  | .s2vInit => 0x2#4
  | .s2vAd => 0x3#4
  | .s2vNonce => 0x4#4
  | .s2vFinal => 0x5#4
  | .ctr => 0x6#4
  | .sivEnc => 0x7#4
  | .sivDec => 0x8#4
  | .dbl => 0x9#4
  | .xor => 0xA#4
  | .pad => 0xB#4
  | .mask => 0xC#4
  | .zeroize => 0xD#4

/-- The command an OP field names (30_encoding.md R102); the values 0xE and 0xF are reserved. -/
def decodeOp (op : Nat) : Except Illegal Instr :=
  match op with
  | 0 => .ok .nop
  | 1 => .ok .cmac
  | 2 => .ok .s2vInit
  | 3 => .ok .s2vAd
  | 4 => .ok .s2vNonce
  | 5 => .ok .s2vFinal
  | 6 => .ok .ctr
  | 7 => .ok .sivEnc
  | 8 => .ok .sivDec
  | 9 => .ok .dbl
  | 10 => .ok .xor
  | 11 => .ok .pad
  | 12 => .ok .mask
  | 13 => .ok .zeroize
  | _ => .error .reservedOpcode

/-- Decoding (30_encoding.md R101): the ZERO field first, then OP. -/
def decode (w : Word) : Except Illegal Instr :=
  if w.extractLsb' 4 28 ≠ 0#28 then .error .nonzeroUpperBits
  else decodeOp (w.extractLsb' 0 4).toNat

/-- The word of a command: OP in bits 3:0, zero in bits 31:4 (30_encoding.md R100, R102). -/
def encode (i : Instr) : Word := 0#28 ++ opcode i

/-- The host's reading of a row of spec/opcode_table.json: `nbits` bits of the word, bit 0 least significant, zero
above. The engine has one 32-bit word and no byte order of its own (30_encoding.md R107). -/
def decodeTableWord (nbits w : Nat) : Option Instr :=
  if w % 2 ^ nbits < 2 ^ 32 then
    match decode (BitVec.ofNat 32 (w % 2 ^ nbits)) with
    | .ok i => some i
    | .error _ => none
  else none

end Sys2Proof
end

