-- ==== Sys2Proof/Machine/Operands.lean ====
section
/-! DEFINITION. The implicit operands of the commands (30_encoding.md R103, R104; 40_control.md R134). -/

namespace Sys2Proof.Machine

/-- `B`, the length of a key half: 16 for KEYSIZE = 0, 32 for KEYSIZE = 1 (40_control.md R134). A reserved KEYSIZE
never gets here: it ends with CONFIG (log entry 13). -/
def keyHalf (s : State) : Nat := if s.keysize = 0#2 then 16 else 32

/-- `Key1 = KEY[0..B)` (40_control.md R134). -/
def key1 (s : State) : List Byte := slice s.key.toList 0 (keyHalf s)

/-- `Key2 = KEY[B..2B)` (40_control.md R134). -/
def key2 (s : State) : List Byte := slice s.key.toList (keyHalf s) (2 * keyHalf s)

/-- LEN as an unsigned byte count (30_encoding.md R104). -/
def inputLen (s : State) : Nat := s.len.toNat

/-- `IBUF[a..b)`. -/
def ibufSlice (s : State) (a b : Nat) : List Byte := readBytes s.ibuf a (b - a)

/-- LEN-bytes: `IBUF[0..LEN)` (30_encoding.md R103). -/
def inputBytes (s : State) : List Byte := ibufSlice s 0 (inputLen s)

/-- `IBUF[0..16)` as a block: the second operand of XOR (41_cmac.md R168). -/
def inputBlock (s : State) : Block := blockOfBytes (ibufSlice s 0 16)

end Sys2Proof.Machine
end

