-- ==== Sys2Proof/Machine/Flags.lean ====
section
/-! DEFINITION. STATUS and CTRL as words, the interrupt output, the checks a command passes and its completion
(10_state.md R30, R31, R44; 40_control.md R133; 60_exceptions.md R270 to R277, R281). -/

namespace Sys2Proof.Machine

/-! ### Register words -/

/-- The number of an error code (60_exceptions.md R270). -/
def errNumber : ErrCode → BitVec 4
  | .noError => 0#4
  | .illegal => 1#4
  | .config => 2#4
  | .sequence => 3#4
  | .length => 4#4
  | .malformed => 5#4
  | .auth => 6#4

/-- The number of a phase (10_state.md R38). -/
def phaseNumber : Phase → BitVec 2
  | .idle => 0#2
  | .ad => 1#2
  | .nonceDone => 2#2

/-- CTRL as read: IRQ_EN in bit 0, KEYSIZE in bits 2:1, zero above (10_state.md R30). -/
def ctrlWord (s : State) : Word := 0#29 ++ s.keysize ++ BitVec.ofBool s.irqEn

/-- STATUS as read (10_state.md R31). -/
def statusWord (s : State) : Word :=
  0#18 ++ phaseNumber s.phase ++ errNumber s.errcode ++ 0#3 ++ BitVec.ofBool s.busViol ++ BitVec.ofBool s.cmdOvr
    ++ BitVec.ofBool s.outValid ++ BitVec.ofBool s.done ++ BitVec.ofBool s.busy

/-- ID, a constant (10_state.md R41). -/
def idValue : Word := 0x53495601#32

/-- CAPS, a constant: BUF_BYTES in bits 15:0, zero above (10_state.md R41). -/
def capsValue : Word := BitVec.ofNat 32 bufBytes

/-- The `irq` output, level-sensitive: `CTRL.IRQ_EN and STATUS.DONE` (10_state.md R44, 60_exceptions.md R281). -/
def irq (s : State) : Bool := s.irqEn && s.done

/-- A write of ones to the W1C bits of STATUS; the other bits ignore the write (10_state.md R31). A lane that is not
strobed clears nothing (20_memory.md R65; DEDUCED, log entry 5, unsafe). -/
def clearStatus (w : Word) (wstrb : BitVec 4) (s : State) : State :=
  let ones := mergeLanes 0#32 w wstrb
  { s with
    done := s.done && !ones.getLsbD 1
    cmdOvr := s.cmdOvr && !ones.getLsbD 3
    busViol := s.busViol && !ones.getLsbD 4 }

/-! ### The checks -/

/-- The commands that use the key (30_encoding.md R102, 60_exceptions.md R271). -/
def keyUsing : Instr → Bool
  | .cmac | .s2vInit | .s2vAd | .s2vNonce | .s2vFinal | .ctr | .sivEnc | .sivDec => true
  | .nop | .dbl | .xor | .pad | .mask | .zeroize => false

/-- CONFIG: a key-using command under a reserved KEYSIZE (60_exceptions.md R271). -/
def configFails (i : Instr) (s : State) : Bool := keyUsing i && (s.keysize == 2#2 || s.keysize == 3#2)

/-- SEQUENCE: the command is not allowed in this PHASE (60_exceptions.md R275). -/
def sequenceFails (i : Instr) (s : State) : Bool :=
  match i with
  | .s2vAd | .s2vNonce => s.phase != .ad
  | .s2vFinal | .sivEnc | .sivDec => s.phase == .idle
  | .nop | .cmac | .s2vInit | .ctr | .dbl | .xor | .pad | .mask | .zeroize => false

/-- LENGTH: LEN is out of range for the command (60_exceptions.md R276). -/
def lengthFails (i : Instr) (s : State) : Bool :=
  match i with
  | .cmac | .s2vAd | .s2vNonce | .s2vFinal | .ctr | .sivEnc | .sivDec => decide (bufBytes < inputLen s)
  | .xor => inputLen s != 16
  | .pad => decide (15 < inputLen s)
  | .nop | .s2vInit | .dbl | .mask | .zeroize => false

/-- MALFORMED: a SIV_DEC input of fewer than 16 bytes (60_exceptions.md R272). -/
def malformedFails (i : Instr) (s : State) : Bool :=
  match i with
  | .sivDec => decide (inputLen s < 16)
  | .nop | .cmac | .s2vInit | .s2vAd | .s2vNonce | .s2vFinal | .ctr | .sivEnc | .dbl | .xor | .pad | .mask
  | .zeroize => false

/-- The checks of a legal command, in their fixed order (60_exceptions.md R277). -/
def check (i : Instr) (s : State) : ErrCode :=
  if configFails i s then .config
  else if sequenceFails i s then .sequence
  else if lengthFails i s then .length
  else if malformedFails i s then .malformed
  else .noError

/-- `check(w)` on the command word itself: ILLEGAL before everything else (60_exceptions.md R274, R277). -/
def checkWord (w : Word) (s : State) : ErrCode :=
  match decode w with
  | .error _ => .illegal
  | .ok i => check i s

/-! ### Completion -/

/-- The completion step of a legal command with its effect (40_control.md R133): the checks, then the error outcome or
the effect, then BUSY falls and DONE rises. -/
def complete (i : Instr) (effect : State → State) (s : State) : State :=
  finish (if check i s = .noError then effect s else takeError (check i s) s)

/-- The completion step of an illegal word (30_encoding.md R105, 60_exceptions.md R274). -/
def completeIllegal (s : State) : State := finish (takeError .illegal s)

end Sys2Proof.Machine
end

