-- ==== Sys2Proof/Machine/Cmac.lean ====
section
/-! DEFINITION. The CMAC family: CMAC, DBL, XOR, PAD (41_cmac.md section 2). An effect that uses the cipher takes it
as an argument. -/

namespace Sys2Proof.Machine

/-- CMAC: `RESULT <- CMAC(Key1, IBUF[0..LEN))` (41_cmac.md R166). -/
def cmacEffect (enc : BlockCipher) (s : State) : State :=
  { s with result := cmac enc (key1 s) (inputBytes s) }

/-- CMAC (41_cmac.md R166). -/
def execCmac (s : State) : Host.Outcome State Fault Refusal := .next (complete .cmac (cmacEffect Config.aesEnc) s)

/-- DBL: `RESULT <- dbl(IV)` (41_cmac.md R167). -/
def dblEffect (s : State) : State := { s with result := dbl s.iv }

/-- DBL (41_cmac.md R167). -/
def execDbl (s : State) : Host.Outcome State Fault Refusal := .next (complete .dbl dblEffect s)

/-- XOR: `RESULT <- IV ⊕ IBUF[0..16)` (41_cmac.md R168). -/
def xorEffect (s : State) : State := { s with result := s.iv ^^^ inputBlock s }

/-- XOR (41_cmac.md R168). -/
def execXor (s : State) : Host.Outcome State Fault Refusal := .next (complete .xor xorEffect s)

/-- PAD: `RESULT <- pad(IBUF[0..LEN))` (41_cmac.md R169). -/
def padEffect (s : State) : State := { s with result := pad (inputBytes s) }

/-- PAD (41_cmac.md R169). -/
def execPad (s : State) : Host.Outcome State Fault Refusal := .next (complete .pad padEffect s)

end Sys2Proof.Machine
end

