-- ==== Sys2Proof/Machine/Control.lean ====
section
/-! DEFINITION. The control commands: NOP and ZEROIZE (40_control.md section 4). -/

namespace Sys2Proof.Machine

/-- NOP has no effect of its own (40_control.md R136). -/
def nopEffect (s : State) : State := s

/-- NOP (40_control.md R136). -/
def execNop (s : State) : Host.Outcome State Fault Refusal := .next (complete .nop nopEffect s)

/-- ZEROIZE clears every data register and buffer; CTRL and the sticky bits are kept (40_control.md R137). -/
def zeroizeEffect (s : State) : State :=
  { s with
    key := Vector.replicate 64 0#8
    iv := 0#128
    ibuf := []
    obuf := []
    result := 0#128
    acc := 0#128
    phase := .idle
    len := 0#32
    outlen := 0#32 }

/-- ZEROIZE (40_control.md R137). -/
def execZeroize (s : State) : Host.Outcome State Fault Refusal := .next (complete .zeroize zeroizeEffect s)

end Sys2Proof.Machine
end

