-- ==== Sys2Proof/Machine/S2v.lean ====
section
/-! DEFINITION. The S2V family: S2V_INIT, S2V_AD, S2V_NONCE, S2V_FINAL (42_s2v.md sections 2 and 3). -/

namespace Sys2Proof.Machine

/-- S2V_INIT opens a chain, whatever chain was open before (42_s2v.md R201). -/
def s2vInitEffect (enc : BlockCipher) (s : State) : State :=
  { s with acc := s2vStart enc (key1 s), phase := .ad }

/-- S2V_INIT (42_s2v.md R201). -/
def execS2vInit (s : State) : Host.Outcome State Fault Refusal :=
  .next (complete .s2vInit (s2vInitEffect Config.aesEnc) s)

/-- S2V_AD folds one string; the empty string is a string too (42_s2v.md R202). -/
def s2vAdEffect (enc : BlockCipher) (s : State) : State :=
  { s with acc := s2vFold enc (key1 s) s.acc (inputBytes s) }

/-- S2V_AD (42_s2v.md R202). -/
def execS2vAd (s : State) : Host.Outcome State Fault Refusal := .next (complete .s2vAd (s2vAdEffect Config.aesEnc) s)

/-- S2V_NONCE folds the nonce, if there is one, and lets no associated data follow it (42_s2v.md R203). -/
def s2vNonceEffect (enc : BlockCipher) (s : State) : State :=
  if 0 < inputLen s then
    { s with acc := s2vFold enc (key1 s) s.acc (inputBytes s), phase := .nonceDone }
  else s

/-- S2V_NONCE (42_s2v.md R203). -/
def execS2vNonce (s : State) : Host.Outcome State Fault Refusal :=
  .next (complete .s2vNonce (s2vNonceEffect Config.aesEnc) s)

/-- S2V_FINAL finishes the chain with a payload and shows V (42_s2v.md R205). -/
def s2vFinalEffect (enc : BlockCipher) (s : State) : State :=
  closeChain { s with result := s2vFinal enc (key1 s) s.acc (inputBytes s) }

/-- S2V_FINAL (42_s2v.md R205). -/
def execS2vFinal (s : State) : Host.Outcome State Fault Refusal :=
  .next (complete .s2vFinal (s2vFinalEffect Config.aesEnc) s)

end Sys2Proof.Machine
end

