-- ==== Sys2Proof/Machine/Siv.lean ====
section
/-! DEFINITION. The AES-SIV facade: CTR, SIV_ENC, SIV_DEC, MASK (43_siv.md section 2). -/

namespace Sys2Proof.Machine

/-- CTR: raw AES-CTR under Key2 from the block in IV, unmasked (43_siv.md R234). -/
def ctrEffect (enc : BlockCipher) (s : State) : State :=
  { s with
    obuf := storeBytes s.obuf 0 (ctr enc (key2 s) s.iv (inputBytes s))
    outlen := s.len
    outValid := true }

/-- CTR (43_siv.md R234). -/
def execCtr (s : State) : Host.Outcome State Fault Refusal := .next (complete .ctr (ctrEffect Config.aesEnc) s)

/-- SIV_ENC: the SIV, then the plaintext under CTR from the masked SIV; the chain closes (43_siv.md R235). -/
def sivEncEffect (enc : BlockCipher) (s : State) : State :=
  let p := inputBytes s
  let v := s2vFinal enc (key1 s) s.acc p
  let q := mask v
  closeChain
    { s with
      obuf := storeBytes (storeBytes s.obuf 0 (bytesOfBlock v)) 16 (ctr enc (key2 s) q p)
      outlen := 16#32 + s.len
      result := v
      outValid := true }

/-- SIV_ENC (43_siv.md R235). -/
def execSivEnc (s : State) : Host.Outcome State Fault Refusal :=
  .next (complete .sivEnc (sivEncEffect Config.aesEnc) s)

/-- The received SIV, `IBUF[0..16)` (43_siv.md R236). -/
def receivedSiv (s : State) : Block := blockOfBytes (ibufSlice s 0 16)

/-- The candidate plaintext: the ciphertext `IBUF[16..LEN)` under CTR from the masked SIV (43_siv.md R236). -/
def candidatePlaintext (enc : BlockCipher) (s : State) : List Byte :=
  ctr enc (key2 s) (mask (receivedSiv s)) (ibufSlice s 16 (inputLen s))

/-- The recomputed SIV (43_siv.md R236). -/
def recomputedSiv (enc : BlockCipher) (s : State) : Block :=
  s2vFinal enc (key1 s) s.acc (candidatePlaintext enc s)

/-- SIV_DEC: the plaintext is released only if all 16 bytes of the two SIVs agree; if not, only the error code AUTH
shows. The chain closes both ways (43_siv.md R236). -/
def sivDecEffect (enc : BlockCipher) (s : State) : State :=
  let t := closeChain s
  if tagDiff (receivedSiv s) (recomputedSiv enc s) = 0#8 then
    { t with
      obuf := storeBytes s.obuf 0 (candidatePlaintext enc s)
      outlen := s.len - 16#32
      result := receivedSiv s
      outValid := true }
  else takeError .auth t

/-- SIV_DEC (43_siv.md R236). -/
def execSivDec (s : State) : Host.Outcome State Fault Refusal :=
  .next (complete .sivDec (sivDecEffect Config.aesEnc) s)

/-- MASK: `RESULT <- mask(IV)` (43_siv.md R233). -/
def maskEffect (s : State) : State := { s with result := mask s.iv }

/-- MASK (43_siv.md R233). -/
def execMask (s : State) : Host.Outcome State Fault Refusal := .next (complete .mask maskEffect s)

end Sys2Proof.Machine
end

