-- ==== Sys2Proof/Machine/Dispatch.lean ====
section
/-! DEFINITION. One arm per command (30_encoding.md R102). -/

namespace Sys2Proof.Machine

/-- The completion step of a legal command (40_control.md R133). -/
def exec (i : Instr) (s : State) : Host.Outcome State Fault Refusal :=
  match i with
  | .nop => Sys2Proof.Machine.execNop s
  | .cmac => Sys2Proof.Machine.execCmac s
  | .s2vInit => Sys2Proof.Machine.execS2vInit s
  | .s2vAd => Sys2Proof.Machine.execS2vAd s
  | .s2vNonce => Sys2Proof.Machine.execS2vNonce s
  | .s2vFinal => Sys2Proof.Machine.execS2vFinal s
  | .ctr => Sys2Proof.Machine.execCtr s
  | .sivEnc => Sys2Proof.Machine.execSivEnc s
  | .sivDec => Sys2Proof.Machine.execSivDec s
  | .dbl => Sys2Proof.Machine.execDbl s
  | .xor => Sys2Proof.Machine.execXor s
  | .pad => Sys2Proof.Machine.execPad s
  | .mask => Sys2Proof.Machine.execMask s
  | .zeroize => Sys2Proof.Machine.execZeroize s

end Sys2Proof.Machine
end

