-- ==== Sys2Proof/Machine/Agents.lean ====
section
/-! DEFINITION. What the ENGINE and RESET agents do in a step (40_control.md R130, R133; 70_reset_and_hazards.md
R310). The HOST's step is `transact` of Machine/Bus.lean. -/

namespace Sys2Proof.Machine

/-- The completion step (40_control.md R133): the word in PENDING is decoded, an illegal word ends with ILLEGAL, a
command runs. -/
def completion (s : State) : Host.Outcome State Fault Refusal :=
  match decode s.pending with
  | .error _ => .next (completeIllegal s)
  | .ok i => exec i s

/-- The ENGINE's turn: enabled exactly when BUSY = 1; while BUSY = 0 it does nothing (40_control.md R130; log entry 2). -/
def engineTurn (s : State) : Host.Outcome State Fault Refusal := if s.busy then completion s else .next s

/-- RESET: every element of the block takes its reset value; the inputs still to come are the outside world's and stay
(70_reset_and_hazards.md R310; log entry 15). -/
def resetEvent (s : State) : State := { State.reset with events := s.events }

/-- The command word `w` issued, and the ENGINE's turn put first (log entry 8). -/
def placeCommand (w : Word) (s : State) : State := { issue w s with events := .engine :: s.events }

end Sys2Proof.Machine
end

