-- ==== Sys2Proof/Machine/Bus.lean ====
section
/-! DEFINITION. The host bus (20_memory.md): the register map, reads and writes. -/

namespace Sys2Proof.Machine

/-- What an aligned address of the window is (20_memory.md R63). A byte-string region carries the offset of the word's
first byte in it. -/
inductive Loc where
  | id | ctrl | cmd | status | len | outlen | caps
  | key (i : Nat) | iv (i : Nat) | result (i : Nat) | acc (i : Nat)
  | ibuf (i : Nat) | obuf (i : Nat)
  | reserved
  deriving DecidableEq, Repr

/-- The register map (20_memory.md R63). -/
def locate (a : Nat) : Loc :=
  if a = 0x000 then .id
  else if a = 0x004 then .ctrl
  else if a = 0x008 then .cmd
  else if a = 0x00C then .status
  else if a = 0x010 then .len
  else if a = 0x014 then .outlen
  else if a = 0x018 then .caps
  else if a < 0x020 then .reserved
  else if a < 0x060 then .key (a - 0x020)
  else if a < 0x070 then .iv (a - 0x060)
  else if a < 0x080 then .result (a - 0x070)
  else if a < 0x090 then .acc (a - 0x080)
  else if a < 0x1000 then .reserved
  else if a < 0x2000 then .ibuf (a - 0x1000)
  else if a < 0x4000 then .obuf (a - 0x2000)
  else .reserved

/-- The address of a transaction is a multiple of 4 (20_memory.md R62). -/
def aligned (addr : BitVec 14) : Bool := addr.extractLsb' 0 2 == 0#2

/-- A byte of a window onto a buffer: the tail past the buffer reads zero (20_memory.md R74). -/
def windowByte (size : Nat) (m : Memory) (i : Nat) : Byte := if i < size then Memory.read m i else 0#8

/-- Writing a byte of the IBUF window: the tail ignores it (20_memory.md R74). -/
def ibufSet (m : Memory) (i : Nat) (b : Byte) : Memory := if i < bufBytes then Memory.write m i b else m

/-- Writing a byte of KEY (10_state.md R34). -/
def keySet (k : Vector Byte 64) (i : Nat) (b : Byte) : Vector Byte 64 := k.setIfInBounds i b

/-- A location that reads zero while a command is in flight (20_memory.md R70). -/
def hiddenWhileBusy (s : State) (w : Word) : Word := if s.busy then 0#32 else w

/-- What an aligned read returns (20_memory.md R63, R64, R66, R67, R70, R72, R74). -/
def readLoc (l : Loc) (s : State) : Word :=
  match l with
  | .id => idValue
  | .ctrl => ctrlWord s
  | .cmd => 0#32
  | .status => statusWord s
  | .len => s.len
  | .outlen => s.outlen
  | .caps => capsValue
  | .key _ => 0#32
  | .iv i => hiddenWhileBusy s (laneWord fun j => blockByte s.iv (i + j))
  | .result i => hiddenWhileBusy s (laneWord fun j => blockByte s.result (i + j))
  | .acc i => hiddenWhileBusy s (laneWord fun j => blockByte s.acc (i + j))
  | .ibuf i => hiddenWhileBusy s (laneWord fun j => windowByte bufBytes s.ibuf (i + j))
  | .obuf i => hiddenWhileBusy s (laneWord fun j => windowByte obufBytes s.obuf (i + j))
  | .reserved => 0#32

/-- `MemRead(addr, 4)` (20_memory.md R61, R62). -/
def busRead (addr : BitVec 14) (s : State) : BusResponse :=
  if aligned addr then { rdata := readLoc (locate addr.toNat) s, err := false }
  else { rdata := 0#32, err := true }

/-- A write of CTRL: the writable bits merge by lane, and a change of KEYSIZE aborts an open chain (10_state.md R30,
20_memory.md R65, 42_s2v.md R207). -/
def writeCtrl (w : Word) (wstrb : BitVec 4) (s : State) : State :=
  let v := mergeLanes (ctrlWord s) w wstrb
  let t := { s with irqEn := v.getLsbD 0, keysize := v.extractLsb' 1 2 }
  if v.extractLsb' 1 2 = s.keysize then t else abortChain t

/-- A write of KEY: any strobed lane aborts an open chain (10_state.md R34, 42_s2v.md R207). -/
def writeKey (i : Nat) (w : Word) (wstrb : BitVec 4) (s : State) : State :=
  let t := { s with key := writeLanes keySet i w wstrb s.key }
  if wstrb = 0#4 then t else abortChain t

/-- An aligned write, with a CMD strobe that passed, while BUSY = 0 (20_memory.md R65, R67, R69, R73). -/
def writeIdle (l : Loc) (w : Word) (wstrb : BitVec 4) (s : State) : State :=
  match l with
  | .cmd => issue w s
  | .status => clearStatus w wstrb s
  | .ctrl => writeCtrl w wstrb s
  | .len => { s with len := mergeLanes s.len w wstrb }
  | .key i => writeKey i w wstrb s
  | .iv i => { s with iv := writeLanes setBlockByte i w wstrb s.iv }
  | .ibuf i => { s with ibuf := writeLanes ibufSet i w wstrb s.ibuf }
  | .id => s
  | .outlen => s
  | .caps => s
  | .result _ => s
  | .acc _ => s
  | .obuf _ => s
  | .reserved => s

/-- An aligned write, with a CMD strobe that passed, while BUSY = 1 (20_memory.md R71, 60_exceptions.md R282). -/
def writeBusy (l : Loc) (w : Word) (wstrb : BitVec 4) (s : State) : State :=
  match l with
  | .cmd => { s with cmdOvr := true }
  | .status => clearStatus w wstrb s
  | .id | .ctrl | .len | .outlen | .caps | .key _ | .iv _ | .result _ | .acc _ | .ibuf _ | .obuf _ | .reserved =>
    { s with busViol := true }

/-- The two writes that answer `err` (60_exceptions.md R280): a misaligned one and a CMD write with a partial strobe. -/
def writeFails (addr : BitVec 14) (wstrb : BitVec 4) : Bool :=
  !aligned addr || (locate addr.toNat == .cmd && wstrb != 0xF#4)

/-- The effect of `MemWrite(addr, 4, w, wstrb)` on the block (20_memory.md R61, R62, R66, R71). -/
def busWrite (addr : BitVec 14) (w : Word) (wstrb : BitVec 4) (s : State) : State :=
  if writeFails addr wstrb then s
  else if s.busy then writeBusy (locate addr.toNat) w wstrb s
  else writeIdle (locate addr.toNat) w wstrb s

/-- One HOST step: the transaction's effect, and its response (20_memory.md R61, R68, R75). -/
def transact (t : Transaction) (s : State) : State :=
  match t.kind with
  | .read => { s with resp := some (busRead t.addr s) }
  | .write =>
    { busWrite t.addr t.wdata t.wstrb s with resp := some { rdata := 0#32, err := writeFails t.addr t.wstrb } }

end Sys2Proof.Machine
end

