-- ==== Sys2Proof/Machine/Step.lean ====
section
/-! DEFINITION. One step of the machine: the next event of the schedule, or, when none is left, the ENGINE
(40_control.md R130, R132). -/

namespace Sys2Proof.Machine

/-- One step. The next event decides whose step it is; with no event left, the weakly fair ENGINE completes a command
in flight, and a block at rest holds its state (40_control.md R130, R132; 60_exceptions.md R291; log entry 1). -/
def step (s : State) : Host.Outcome State Fault Refusal :=
  match s.events with
  | [] => engineTurn s
  | .host t :: rest => .next (transact t { s with events := rest })
  | .engine :: rest => engineTurn { s with events := rest }
  | .reset :: rest => .next (resetEvent { s with events := rest })

/-- The state in which `step` runs the command word `w` next: the CMD write of 40_control.md R131 has issued it, and
the ENGINE has its turn (log entry 8). -/
def State.withFetchWord (s : State) (nbits w : Nat) : State :=
  placeCommand (BitVec.ofNat 32 (w % 2 ^ nbits)) s

end Sys2Proof.Machine
end

