-- ==== Sys2Proof/Machine/HostProgram.lean ====
section
/-! DEFINITION. The host-program notation of 30_encoding.md R108 and R109, expanded into the events of a schedule. The
branches of a host program act on values the host has read and are the host's own (log entry 16). -/

namespace Sys2Proof.Machine

/-- `wrs OFF, W, S` (30_encoding.md R108). -/
def hostWrs (off : Nat) (w : Word) (wstrb : BitVec 4) : Event :=
  .host { kind := .write, addr := BitVec.ofNat 14 off, wdata := w, wstrb := wstrb }

/-- `wr OFF, W` (30_encoding.md R108). -/
def hostWr (off : Nat) (w : Word) : Event := hostWrs off w 0xF#4

/-- `rd OFF` (30_encoding.md R108); a read ignores data and strobe. -/
def hostRd (off : Nat) : Event :=
  .host { kind := .read, addr := BitVec.ofNat 14 off, wdata := 0#32, wstrb := 0#4 }

/-- `cmd MNEMONIC` (30_encoding.md R108). -/
def hostCmd (i : Instr) : Event := hostWr 0x008 (encode i)

/-- Word `k` of a byte string, packed by lanes, zero past its end (30_encoding.md R109). -/
def packWord (bs : List Byte) (k : Nat) : Word := laneWord fun j => bs.getD (4 * k + j) 0#8

/-- `ldbytes BASE, hex` (30_encoding.md R109). -/
def hostLdbytes (base : Nat) (bs : List Byte) : List Event :=
  (List.range ((bs.length + 3) / 4)).map fun k => hostWr (base + 4 * k) (packWord bs k)

/-- `ldkey hex` (30_encoding.md R109). -/
def hostLdkey (bs : List Byte) : List Event := hostLdbytes 0x020 bs

/-- `ldiv hex` (30_encoding.md R109). -/
def hostLdiv (bs : List Byte) : List Event := hostLdbytes 0x060 bs

/-- `ldin hex` (30_encoding.md R109). -/
def hostLdin (bs : List Byte) : List Event := hostLdbytes 0x1000 bs

/-- `setlen n` (30_encoding.md R109). -/
def hostSetlen (n : Nat) : Event := hostWr 0x010 (BitVec.ofNat 32 n)

/-- `rdbytes BASE, n` (30_encoding.md R109). -/
def hostRdbytes (base n : Nat) : List Event := (List.range ((n + 3) / 4)).map fun k => hostRd (base + 4 * k)

/-- `wait` (30_encoding.md R109), as it runs when the completion step falls after `polls` reads of STATUS that show
BUSY = 1: one more read then shows BUSY = 0. -/
def hostWait (polls : Nat) : List Event := List.replicate polls (hostRd 0x00C) ++ [.engine, hostRd 0x00C]

/-- `run M` (30_encoding.md R109). -/
def hostRun (i : Instr) (polls : Nat) : List Event := hostCmd i :: hostWait polls

end Sys2Proof.Machine
end

