-- ==== Sys2Proof/Safety.lean ====
section
/-! DEFINITION. What counts as a good state of the engine, the writes that close a chain, and the runs that the claims
speak of (10_state.md R46, 42_s2v.md R206, R207, 43_siv.md R238). -/

namespace Sys2Proof.Machine

/-- R46, first invariant: no chain open means a zero accumulator (10_state.md R46). -/
abbrev closedChainIsZero (s : State) : Prop := s.phase = .idle → s.acc = 0#128

/-- R46, second invariant: nothing released means an empty OBUF (10_state.md R46). -/
abbrev nothingUnreleased (s : State) : Prop := s.outValid = false → s.obuf = [] ∧ s.outlen = 0#32

/-- R46, third invariant: a command in flight shows no output (10_state.md R46). -/
abbrev quietWhileBusy (s : State) : Prop :=
  s.busy = true →
    s.done = false ∧ s.errcode = .noError ∧ s.outValid = false ∧ s.outlen = 0#32 ∧ s.result = 0#128 ∧ s.obuf = []

/-- The two buffers are in canonical form and inside their capacity, and OBUF is zero past OUTLEN (10_state.md R39,
R40; 43_siv.md R234). -/
abbrev buffersCanonical (s : State) : Prop :=
  Memory.wf s.ibuf = true ∧ Memory.below bufBytes s.ibuf = true ∧
    Memory.wf s.obuf = true ∧ Memory.below s.outlen.toNat s.obuf = true ∧ s.outlen.toNat ≤ obufBytes

/-- The invariant of the machine: R46, and the form of the buffers. -/
abbrev State.Inv (s : State) : Prop :=
  closedChainIsZero s ∧ nothingUnreleased s ∧ quietWhileBusy s ∧ buffersCanonical s

/-- The two writes that close an open chain (42_s2v.md R207): at rest and aligned, one of at least one byte of KEY, or
one of CTRL that gives KEYSIZE, which stands in lane 0, another value. -/
abbrev closesOpenChain (addr : BitVec 14) (w : Word) (wstrb : BitVec 4) (s : State) : Prop :=
  s.busy = false ∧ addr.toNat % 4 = 0 ∧
    ((0x020 ≤ addr.toNat ∧ addr.toNat < 0x060 ∧ wstrb ≠ 0#4) ∨
      (addr = 0x004#14 ∧ wstrb.getLsbD 0 = true ∧ w.extractLsb' 1 2 ≠ s.keysize))

/-- The state a step answers, if it answers one. -/
def nextOf (o : Host.Outcome State Fault Refusal) : Option State :=
  match o with
  | .next t => some t
  | .fault _ => none
  | .refused _ => none

/-- One command from issue to completion (40_control.md R131, R133). -/
def runCommand (i : Instr) (s : State) : Option State := nextOf (exec i (issue (encode i) s))

/-- A byte string placed in IBUF from byte 0, with LEN set to its length: the set-up of a command (70_reset_and_hazards.md
R312). -/
def presentInput (bs : List Byte) (s : State) : State :=
  { s with ibuf := storeBytes s.ibuf 0 bs, len := BitVec.ofNat 32 bs.length }

/-- A command run on a byte string. -/
def runOn (i : Instr) (bs : List Byte) (s : State) : Option State := runCommand i (presentInput bs s)

/-- S2V_INIT, then S2V_AD with each string, then S2V_NONCE (42_s2v.md R206). -/
def runChain (ads : List (List Byte)) (nonce : List Byte) (s : State) : Option State := do
  let s ← runCommand .s2vInit s
  let s ← ads.foldlM (fun s a => runOn .s2vAd a s) s
  runOn .s2vNonce nonce s

/-- The strings an S2V chain folds: the associated data, and the nonce if there is one (42_s2v.md R206). -/
def chainStrings (ads : List (List Byte)) (nonce : List Byte) : List (List Byte) :=
  ads ++ if nonce.length = 0 then [] else [nonce]

/-- The released output: `OBUF[0..OUTLEN)` (10_state.md R31, R33). -/
def releasedOutput (s : State) : List Byte := readBytes s.obuf 0 s.outlen.toNat

/-- What the host can see of the block besides the bus: STATUS, OUTLEN, RESULT and the released output all show
nothing of the command that has just failed. -/
def showsNoOutput (s : State) : Prop :=
  s.outValid = false ∧ s.outlen = 0#32 ∧ s.result = 0#128 ∧ ∀ a, Memory.read s.obuf a = 0#8

end Sys2Proof.Machine
end

