-- ==== Sys2Proof/Certificates/Slice0/Obligations.lean ====
section
/-! DEFINITION. The statements for the provers. Each docstring names the rule of spec/ the statement formalises. -/

open Sys2Proof Sys2Proof.Machine

/-! ### Decoding -/

/-- 30_encoding.md R102: the word `0x0000000n` is the command of OP = n, with its key-using mark; the two reserved OP
values name no command. A sanity statement on fixed words. -/
def Obligations.OpcodeMapDecodes : Prop :=
  (∀ e ∈ ([(0x0#32, .nop, false), (0x1#32, .cmac, true), (0x2#32, .s2vInit, true), (0x3#32, .s2vAd, true),
      (0x4#32, .s2vNonce, true), (0x5#32, .s2vFinal, true), (0x6#32, .ctr, true), (0x7#32, .sivEnc, true),
      (0x8#32, .sivDec, true), (0x9#32, .dbl, false), (0xA#32, .xor, false), (0xB#32, .pad, false),
      (0xC#32, .mask, false), (0xD#32, .zeroize, false)] : List (Word × Instr × Bool)),
    decode e.1 = .ok e.2.1 ∧ keyUsing e.2.1 = e.2.2) ∧
  decode 0xE#32 = .error .reservedOpcode ∧ decode 0xF#32 = .error .reservedOpcode

/-- Decoding and encoding agree, in both directions: a word reads as a command exactly when it is that command's word
(30_encoding.md R100, R101, R102). -/
def Obligations.DecodeIffEncode : Prop :=
  ∀ (w : Word) (i : Instr), decode w = .ok i ↔ w = encode i

/-- 60_exceptions.md R274: exactly the words with a bit of 31:4 set or with OP 0xE or 0xF are ILLEGAL; their completion
step sets ERRCODE, ends the lifecycle and does nothing else, whatever KEYSIZE, PHASE and LEN hold. -/
def Obligations.IllegalWordsEndWithIllegal : Prop :=
  ∀ s : State,
    (16 ≤ s.pending.toNat ∨ s.pending.toNat = 0xE ∨ s.pending.toNat = 0xF →
      checkWord s.pending s = .illegal ∧
      completion s = .next { s with errcode := .illegal, busy := false, done := true }) ∧
    (s.pending.toNat < 0xE → checkWord s.pending s ≠ .illegal ∧ ∃ i, decode s.pending = .ok i)

/-! ### Steps -/

/-- A step runs the decoded command: with a command in flight and the ENGINE's turn next (or no event left), the step
is `exec` of the command that PENDING decodes to (40_control.md R130, R133); and the placed command word is issued and
is the next command that runs, from every state (log entry 8; R131). -/
def Obligations.StepRunsTheDecodedCommand : Prop :=
  (∀ (s : State) (i : Instr) (rest : List Event), s.busy = true → decode s.pending = .ok i →
    (s.events = [] → step s = exec i s) ∧
    (s.events = .engine :: rest → step s = exec i { s with events := rest })) ∧
  ∀ (s : State) (i : Instr), step (s.withFetchWord 32 (encode i).toNat) = exec i (issue (encode i) s)

/-- A CMD write and then the ENGINE's turn run one command from issue to completion: the runs of the headline
statements are runs of the machine (40_control.md R131, R133). The response field is the model's own (log entry 6). -/
def Obligations.CommandRunIsTwoSteps : Prop :=
  ∀ (s : State) (i : Instr) (rest : List Event), s.busy = false → s.events = hostCmd i :: .engine :: rest →
    ∃ t, step s = .next t ∧
      nextOf (step t) =
        runCommand i { s with events := rest, resp := some { rdata := 0#32, err := false } }

/-- 40_control.md R133: the ENGINE step is the error outcome of the first failing check, or the command itself; in both
cases BUSY falls and DONE rises, and only SIV_DEC may change ERRCODE, to AUTH, in a command that passed its checks. -/
def Obligations.CompletionStep : Prop :=
  ∀ (s : State) (rest : List Event), s.busy = true → s.events = .engine :: rest →
    (checkWord s.pending s ≠ .noError →
      step s = .next
        { s with events := rest, errcode := checkWord s.pending s, busy := false, done := true }) ∧
    (checkWord s.pending s = .noError →
      ∃ i t, decode s.pending = .ok i ∧ step s = exec i { s with events := rest } ∧ step s = .next t ∧
        t.busy = false ∧ t.done = true ∧ (i ≠ .sivDec → t.errcode = s.errcode) ∧
        (t.errcode = s.errcode ∨ t.errcode = .auth))

/-- 40_control.md R132: if no RESET comes before the ENGINE's turn, a command in flight completes, exactly once, no later
than the end of the schedule, and until then it stays in flight with its word in PENDING; a RESET that comes after the
ENGINE's turn is too late. That the end of the schedule gives the ENGINE its turn is the model's rendering of weak
fairness (log entry 1). -/
def Obligations.EveryIssuedCommandCompletes : Prop :=
  ∀ s : State, s.busy = true → (∀ before after, s.events = before ++ .reset :: after → Event.engine ∈ before) →
    ∃ k t, 0 < k ∧ k ≤ s.events.length + 1 ∧ Host.Core.run Sys2Proof.core k s = .next t ∧
      State.busy t = false ∧ State.done t = true ∧
      ∀ j < k, ∃ r, Host.Core.run Sys2Proof.core j s = .next r ∧ State.busy r = true ∧ State.pending r = s.pending

/-- Every state has a next state, whatever its schedule holds: nothing stops the machine (30_encoding.md R101,
60_exceptions.md R278, R280). While BUSY = 0 the ENGINE has no step: its turn changes nothing but the schedule, and a
block at rest with no event left holds its state (40_control.md R130, 60_exceptions.md R291; log entries 1 and 2). -/
def Obligations.NothingStopsAndRestHolds : Prop :=
  ∀ s : State, (∃ t, step s = .next t) ∧
    (s.busy = false →
      (∀ rest, s.events = .engine :: rest → step s = .next { s with events := rest }) ∧
      (s.events = [] → step s = .next s))

/-! ### Issue -/

/-- 40_control.md R131: a CMD write with strobe 1111 while BUSY = 0 issues the word: it decodes nothing, checks
nothing, clears the outputs and leaves every other element of the block as it was; `irq` falls. The schedule and the
response, which are the model's own fields, are left out of the comparison. -/
def Obligations.CmdWriteIssues : Prop :=
  ∀ (s : State) (w : Word) (rest : List Event), s.busy = false →
    s.events = .host { kind := .write, addr := 0x008#14, wdata := w, wstrb := 0xF#4 } :: rest →
    ∃ t, step s = .next t ∧ irq t = false ∧
      { t with events := s.events, resp := s.resp } =
        { s with
          pending := w
          busy := true
          done := false
          errcode := .noError
          outValid := false
          outlen := 0#32
          result := 0#128
          obuf := [] }

/-! ### The commands -/

/-- 40_control.md R136: NOP completes in every state and has no effect beyond the lifecycle; run from issue it leaves
the output registers clear and the chain as it was, and STATUS reads 0x00001002 in phase AD and 0x00000002 in phase
IDLE when no sticky bit is set. -/
def Obligations.NopCompletes : Prop :=
  ∀ s : State,
    exec .nop s = .next { s with busy := false, done := true } ∧
    ∃ t, runCommand .nop s = some t ∧ t.result = 0#128 ∧ t.outlen = 0#32 ∧ t.obuf = [] ∧ t.outValid = false ∧
      t.errcode = .noError ∧ t.done = true ∧ t.phase = s.phase ∧ t.acc = s.acc ∧
      (s.cmdOvr = false → s.busViol = false → s.phase = .ad → statusWord t = 0x00001002#32) ∧
      (s.cmdOvr = false → s.busViol = false → s.phase = .idle → statusWord t = 0x00000002#32)

/-- 40_control.md R137: ZEROIZE completes in every state and clears every data register and buffer; CTRL and the sticky
bits are kept. -/
def Obligations.ZeroizeCompletes : Prop :=
  ∀ s : State,
    exec .zeroize s = .next
      { s with
        key := Vector.replicate 64 0#8
        iv := 0#128
        ibuf := []
        obuf := []
        result := 0#128
        acc := 0#128
        phase := .idle
        len := 0#32
        outlen := 0#32
        busy := false
        done := true } ∧
    ∃ t, runCommand .zeroize s = some t ∧ t.irqEn = s.irqEn ∧ t.keysize = s.keysize ∧
      statusWord t = 0x00000002#32 ||| (if s.cmdOvr then 0x8#32 else 0#32) ||| (if s.busViol then 0x10#32 else 0#32)

/-- 41_cmac.md R166: CMAC completes under a supported KEYSIZE when LEN fits the buffer, and RESULT is the CMAC of
IBUF[0..LEN) under Key1, for every LEN from 0 on and inside an open chain or not; CONFIG comes before LENGTH. -/
def Obligations.CmacCompletes : Prop :=
  ∀ s : State,
    (s.keysize.toNat ≤ 1 → s.len.toNat ≤ bufBytes →
      exec .cmac s = .next
        { s with
          result := cmac Config.aesEnc (key1 s) (readBytes s.ibuf 0 s.len.toNat)
          busy := false
          done := true }) ∧
    (2 ≤ s.keysize.toNat → exec .cmac s = .next { s with errcode := .config, busy := false, done := true }) ∧
    (s.keysize.toNat ≤ 1 → bufBytes < s.len.toNat →
      exec .cmac s = .next { s with errcode := .length, busy := false, done := true })

/-- 41_cmac.md R167, 43_siv.md R233: DBL and MASK complete in every state, whatever KEYSIZE, PHASE and LEN hold: RESULT
is the double of the IV block, or the masked IV block; the rules' corner cases and examples. -/
def Obligations.DblAndMaskComplete : Prop :=
  ∀ s : State,
    exec .dbl s = .next { s with result := dbl s.iv, busy := false, done := true } ∧
    exec .mask s = .next { s with result := mask s.iv, busy := false, done := true } ∧
    (s.iv = 0x80000000000000000000000000000000#128 → dbl s.iv = 0x87#128) ∧
    (s.iv = 0x0e04dfafc1efbf040140582859bf073a#128 → dbl s.iv = 0x1c09bf5f83df7e080280b050b37e0e74#128) ∧
    (s.iv = 0xffffffffffffffffffffffffffffffff#128 → mask s.iv = 0xffffffffffffffff7fffffff7fffffff#128) ∧
    (s.iv = 0x7bdb6e3b432667eb06f4d14bff2fbd0f#128 → mask s.iv = 0x7bdb6e3b432667eb06f4d14b7f2fbd0f#128) ∧
    (blockByte s.iv 8 < 0x80#8 → blockByte s.iv 12 < 0x80#8 → mask s.iv = s.iv)

/-- 41_cmac.md R168: XOR completes when LEN = 16, whatever KEYSIZE holds: byte `i` of RESULT is byte `i` of IV xor byte
`i` of IBUF, and IV = IBUF[0..16) gives zero. It ends with LENGTH for every other LEN. -/
def Obligations.XorCompletes : Prop :=
  ∀ s : State,
    (s.len = 16#32 →
      ∃ v, exec .xor s = .next { s with result := v, busy := false, done := true } ∧
        (∀ i < 16, blockByte v i = blockByte s.iv i ^^^ Memory.read s.ibuf i) ∧
        ((∀ i < 16, blockByte s.iv i = Memory.read s.ibuf i) → v = 0#128)) ∧
    (s.len ≠ 16#32 → exec .xor s = .next { s with errcode := .length, busy := false, done := true })

/-- 41_cmac.md R169: PAD completes when LEN is at most 15, whatever KEYSIZE holds: RESULT is the LEN input bytes, one
byte 0x80, and zeros. It ends with LENGTH for every other LEN. -/
def Obligations.PadCompletes : Prop :=
  ∀ s : State,
    (s.len.toNat ≤ 15 →
      ∃ v, exec .pad s = .next { s with result := v, busy := false, done := true } ∧
        ∀ i < 16, blockByte v i =
          if i < s.len.toNat then Memory.read s.ibuf i else if i = s.len.toNat then 0x80#8 else 0#8) ∧
    (15 < s.len.toNat → exec .pad s = .next { s with errcode := .length, busy := false, done := true })

/-- 42_s2v.md R201: S2V_INIT completes in every PHASE under a supported KEYSIZE, whatever LEN and IBUF hold, and opens a
chain with ACC the CMAC of the zero block. -/
def Obligations.S2vInitCompletes : Prop :=
  ∀ s : State,
    (s.keysize.toNat ≤ 1 →
      exec .s2vInit s = .next
        { s with
          acc := cmac Config.aesEnc (key1 s) (List.replicate 16 0#8)
          phase := .ad
          busy := false
          done := true }) ∧
    (2 ≤ s.keysize.toNat → exec .s2vInit s = .next { s with errcode := .config, busy := false, done := true })

/-- 42_s2v.md R202: S2V_AD completes in phase AD and folds IBUF[0..LEN) into ACC, the empty string too; its errors in
their order. -/
def Obligations.S2vAdCompletes : Prop :=
  ∀ s : State,
    (s.keysize.toNat ≤ 1 → s.phase = .ad → s.len.toNat ≤ bufBytes →
      exec .s2vAd s = .next
        { s with
          acc := dbl s.acc ^^^ cmac Config.aesEnc (key1 s) (readBytes s.ibuf 0 s.len.toNat)
          busy := false
          done := true }) ∧
    (2 ≤ s.keysize.toNat → exec .s2vAd s = .next { s with errcode := .config, busy := false, done := true }) ∧
    (s.keysize.toNat ≤ 1 → s.phase ≠ .ad →
      exec .s2vAd s = .next { s with errcode := .sequence, busy := false, done := true }) ∧
    (s.keysize.toNat ≤ 1 → s.phase = .ad → bufBytes < s.len.toNat →
      exec .s2vAd s = .next { s with errcode := .length, busy := false, done := true })

/-- 42_s2v.md R203: S2V_NONCE completes in phase AD; a non-empty nonce is folded and moves PHASE to NONCE_DONE, an empty
one changes nothing; its errors in their order, the phase check for LEN = 0 too. -/
def Obligations.S2vNonceCompletes : Prop :=
  ∀ s : State,
    (s.keysize.toNat ≤ 1 → s.phase = .ad → 0 < s.len.toNat → s.len.toNat ≤ bufBytes →
      exec .s2vNonce s = .next
        { s with
          acc := dbl s.acc ^^^ cmac Config.aesEnc (key1 s) (readBytes s.ibuf 0 s.len.toNat)
          phase := .nonceDone
          busy := false
          done := true }) ∧
    (s.keysize.toNat ≤ 1 → s.phase = .ad → s.len = 0#32 →
      exec .s2vNonce s = .next { s with busy := false, done := true }) ∧
    (2 ≤ s.keysize.toNat → exec .s2vNonce s = .next { s with errcode := .config, busy := false, done := true }) ∧
    (s.keysize.toNat ≤ 1 → s.phase ≠ .ad →
      exec .s2vNonce s = .next { s with errcode := .sequence, busy := false, done := true }) ∧
    (s.keysize.toNat ≤ 1 → s.phase = .ad → bufBytes < s.len.toNat →
      exec .s2vNonce s = .next { s with errcode := .length, busy := false, done := true })

/-- 42_s2v.md R205: S2V_FINAL completes with a chain open: RESULT is the final combining step over IBUF[0..LEN), and the
chain closes; its errors leave the chain as it was. -/
def Obligations.S2vFinalCompletes : Prop :=
  ∀ s : State,
    (s.keysize.toNat ≤ 1 → s.phase ≠ .idle → s.len.toNat ≤ bufBytes →
      exec .s2vFinal s = .next
        { s with
          result := s2vFinal Config.aesEnc (key1 s) s.acc (readBytes s.ibuf 0 s.len.toNat)
          acc := 0#128
          phase := .idle
          busy := false
          done := true }) ∧
    (2 ≤ s.keysize.toNat → exec .s2vFinal s = .next { s with errcode := .config, busy := false, done := true }) ∧
    (s.keysize.toNat ≤ 1 → s.phase = .idle →
      exec .s2vFinal s = .next { s with errcode := .sequence, busy := false, done := true }) ∧
    (s.keysize.toNat ≤ 1 → s.phase ≠ .idle → bufBytes < s.len.toNat →
      exec .s2vFinal s = .next { s with errcode := .length, busy := false, done := true })

/-- 43_siv.md R234: CTR completes in every PHASE: OBUF[0..LEN) is AES-CTR of IBUF[0..LEN) under Key2 from the IV block
as given, OUTLEN is LEN; CONFIG comes before LENGTH. -/
def Obligations.CtrCompletes : Prop :=
  ∀ s : State,
    (s.keysize.toNat ≤ 1 → s.len.toNat ≤ bufBytes →
      exec .ctr s = .next
        { s with
          obuf := storeBytes s.obuf 0 (ctr Config.aesEnc (key2 s) s.iv (readBytes s.ibuf 0 s.len.toNat))
          outlen := s.len
          outValid := true
          busy := false
          done := true }) ∧
    (2 ≤ s.keysize.toNat → exec .ctr s = .next { s with errcode := .config, busy := false, done := true }) ∧
    (s.keysize.toNat ≤ 1 → bufBytes < s.len.toNat →
      exec .ctr s = .next { s with errcode := .length, busy := false, done := true })

/-- 43_siv.md R235: SIV_ENC completes with a chain open: OBUF is V and then the plaintext under CTR from the masked V,
OUTLEN is 16 + LEN, RESULT is V, and the chain closes; its errors leave the chain as it was. -/
def Obligations.SivEncCompletes : Prop :=
  ∀ s : State,
    (s.keysize.toNat ≤ 1 → s.phase ≠ .idle → s.len.toNat ≤ bufBytes →
      ∃ v t, v = s2vFinal Config.aesEnc (key1 s) s.acc (readBytes s.ibuf 0 s.len.toNat) ∧
        t = { s with
          obuf := storeBytes (storeBytes s.obuf 0 (bytesOfBlock v)) 16
            (ctr Config.aesEnc (key2 s) (mask v) (readBytes s.ibuf 0 s.len.toNat))
          outlen := BitVec.ofNat 32 (16 + s.len.toNat)
          result := v
          outValid := true
          acc := 0#128
          phase := .idle
          busy := false
          done := true } ∧
        exec .sivEnc s = .next t ∧ t.outlen.toNat = 16 + s.len.toNat) ∧
    (2 ≤ s.keysize.toNat → exec .sivEnc s = .next { s with errcode := .config, busy := false, done := true }) ∧
    (s.keysize.toNat ≤ 1 → s.phase = .idle →
      exec .sivEnc s = .next { s with errcode := .sequence, busy := false, done := true }) ∧
    (s.keysize.toNat ≤ 1 → s.phase ≠ .idle → bufBytes < s.len.toNat →
      exec .sivEnc s = .next { s with errcode := .length, busy := false, done := true })

/-- 43_siv.md R236: SIV_DEC completes with a chain open on an input of at least 16 bytes: it releases the plaintext
exactly when the recomputed SIV equals the received one, and shows AUTH and no output when not; the chain closes both
ways. Its four earlier errors, in their order, leave the chain as it was. -/
def Obligations.SivDecCompletes : Prop :=
  ∀ s : State,
    (s.keysize.toNat ≤ 1 → s.phase ≠ .idle → 16 ≤ s.len.toNat → s.len.toNat ≤ bufBytes →
      ∃ v p v', v = blockOfBytes (readBytes s.ibuf 0 16) ∧
        p = ctr Config.aesEnc (key2 s) (mask v) (readBytes s.ibuf 16 (s.len.toNat - 16)) ∧
        v' = s2vFinal Config.aesEnc (key1 s) s.acc p ∧
        (v = v' →
          exec .sivDec s = .next
            { s with
              obuf := storeBytes s.obuf 0 p
              outlen := BitVec.ofNat 32 (s.len.toNat - 16)
              result := v
              outValid := true
              acc := 0#128
              phase := .idle
              busy := false
              done := true }) ∧
        (v ≠ v' →
          exec .sivDec s = .next
            { s with errcode := .auth, acc := 0#128, phase := .idle, busy := false, done := true })) ∧
    (2 ≤ s.keysize.toNat → exec .sivDec s = .next { s with errcode := .config, busy := false, done := true }) ∧
    (s.keysize.toNat ≤ 1 → s.phase = .idle →
      exec .sivDec s = .next { s with errcode := .sequence, busy := false, done := true }) ∧
    (s.keysize.toNat ≤ 1 → s.phase ≠ .idle → bufBytes < s.len.toNat →
      exec .sivDec s = .next { s with errcode := .length, busy := false, done := true }) ∧
    (s.keysize.toNat ≤ 1 → s.phase ≠ .idle → s.len.toNat < 16 →
      exec .sivDec s = .next { s with errcode := .malformed, busy := false, done := true })

/-! ### What the commands leave unchanged -/

/-- The frame of all fourteen commands (30_encoding.md R103): none writes CTRL, the sticky bits or PENDING; only ZEROIZE
writes KEY, IV, IBUF or LEN; only CTR, SIV_ENC, SIV_DEC and ZEROIZE write OBUF or OUTLEN, and only the first three
OUT_VALID; only the S2V commands, SIV_ENC, SIV_DEC and ZEROIZE write ACC or PHASE; the commands that write RESULT are
the rest. Memory is compared byte by byte. -/
def Obligations.CommandsWriteOnlyTheirOutputs : Prop :=
  ∀ (i : Instr) (s t : State), exec i s = .next t →
    t.irqEn = s.irqEn ∧ t.keysize = s.keysize ∧ t.cmdOvr = s.cmdOvr ∧ t.busViol = s.busViol ∧ t.pending = s.pending ∧
    t.events = s.events ∧ t.resp = s.resp ∧
    (i ≠ .zeroize →
      t.key = s.key ∧ t.iv = s.iv ∧ t.len = s.len ∧ ∀ a, Memory.read t.ibuf a = Memory.read s.ibuf a) ∧
    (i ∉ [Instr.ctr, .sivEnc, .sivDec] →
      t.outValid = s.outValid ∧
      (i ≠ .zeroize → t.outlen = s.outlen ∧ ∀ a, Memory.read t.obuf a = Memory.read s.obuf a)) ∧
    (i ∈ [Instr.nop, .cmac, .ctr, .dbl, .xor, .pad, .mask] → t.acc = s.acc ∧ t.phase = s.phase) ∧
    (i ∈ [Instr.nop, .s2vInit, .s2vAd, .s2vNonce, .ctr] → t.result = s.result)

/-- What CTR, SIV_ENC and SIV_DEC store (43_siv.md R234, R235, R236): byte `a` of OBUF is the output's byte `a` below the
output's length, and every other byte of OBUF is as before. The length is LEN, 16 + LEN or LEN - 16; a SIV_DEC that does
not verify stores nothing. -/
def Obligations.OutputBytesOfObuf : Prop :=
  ∀ s : State, Memory.wf s.obuf = true → s.keysize.toNat ≤ 1 → s.len.toNat ≤ bufBytes →
    (∃ t, exec .ctr s = .next t ∧
      ∀ a, Memory.read t.obuf a =
        if a < s.len.toNat
        then Memory.read s.ibuf a ^^^ blockByte (Config.aesEnc (key2 s) (counterBlock s.iv (a / 16))) (a % 16)
        else Memory.read s.obuf a) ∧
    (s.phase ≠ .idle →
      ∃ t v, exec .sivEnc s = .next t ∧ v = s2vFinal Config.aesEnc (key1 s) s.acc (readBytes s.ibuf 0 s.len.toNat) ∧
        ∀ a, Memory.read t.obuf a =
          if a < 16 then blockByte v a
          else if a < 16 + s.len.toNat then
            Memory.read s.ibuf (a - 16) ^^^
              blockByte (Config.aesEnc (key2 s) (counterBlock (mask v) ((a - 16) / 16))) ((a - 16) % 16)
          else Memory.read s.obuf a) ∧
    (s.phase ≠ .idle → 16 ≤ s.len.toNat →
      ∃ t v, exec .sivDec s = .next t ∧ v = blockOfBytes (readBytes s.ibuf 0 16) ∧
        ∀ a, Memory.read t.obuf a =
          if receivedSiv s = recomputedSiv Config.aesEnc s ∧ a < s.len.toNat - 16 then
            Memory.read s.ibuf (16 + a) ^^^
              blockByte (Config.aesEnc (key2 s) (counterBlock (mask v) (a / 16))) (a % 16)
          else Memory.read s.obuf a)

/-- 30_encoding.md R104: no command reads a byte of IBUF at LEN or beyond: two IBUFs that agree below LEN give the same
outcome, whatever the command. -/
def Obligations.IbufBeyondLenIsNeverRead : Prop :=
  ∀ (i : Instr) (s t : State) (m : Memory), exec i s = .next t →
    (∀ a < s.len.toNat, Memory.read m a = Memory.read s.ibuf a) →
    exec i { s with ibuf := m } = .next { t with ibuf := if i = .zeroize then t.ibuf else m }

/-- 40_control.md R134 and 60_exceptions.md R271: with KEYSIZE = 0 no command reads KEY[32..64), and a command that is
not key-using reads no byte of KEY at all. -/
def Obligations.UnusedKeyBytesAreNeverRead : Prop :=
  ∀ (i : Instr) (s t : State) (k : Vector Byte 64), exec i s = .next t →
    (keyUsing i = true → s.keysize = 0#2 ∧ ∀ j < 32, k.toList.getD j 0#8 = s.key.toList.getD j 0#8) →
    exec i { s with key := k } = .next { t with key := if i = .zeroize then t.key else k }

/-- 42_s2v.md R200: PHASE and ACC after each command, row by row: an error leaves both; the S2V commands move them as
the table says; no other command but ZEROIZE changes them. -/
def Obligations.PhaseTransitions : Prop :=
  ∀ (i : Instr) (s : State), ∃ t, exec i s = .next t ∧
    (check i s ≠ .noError → t.phase = s.phase ∧ t.acc = s.acc) ∧
    (check i s = .noError →
      (i = .s2vInit → t.phase = .ad ∧ t.acc = cmac Config.aesEnc (key1 s) (List.replicate 16 0#8)) ∧
      (i = .s2vAd → s.phase = .ad ∧ t.phase = .ad ∧
        t.acc = dbl s.acc ^^^ cmac Config.aesEnc (key1 s) (readBytes s.ibuf 0 s.len.toNat)) ∧
      (i = .s2vNonce → s.phase = .ad ∧
        (0 < s.len.toNat → t.phase = .nonceDone ∧
          t.acc = dbl s.acc ^^^ cmac Config.aesEnc (key1 s) (readBytes s.ibuf 0 s.len.toNat)) ∧
        (s.len.toNat = 0 → t.phase = .ad ∧ t.acc = s.acc)) ∧
      (i ∈ [Instr.s2vFinal, .sivEnc, .sivDec] → s.phase ≠ .idle ∧ t.phase = .idle ∧ t.acc = 0#128) ∧
      (i = .zeroize → t.phase = .idle ∧ t.acc = 0#128) ∧
      (i ∈ [Instr.nop, .cmac, .ctr, .dbl, .xor, .pad, .mask] → t.phase = s.phase ∧ t.acc = s.acc))

/-! ### Errors -/

/-- 60_exceptions.md R277: the one code reported is that of the first failing check, in the fixed order. -/
def Obligations.CheckOrder : Prop :=
  ∀ (w : Word) (s : State),
    ((∃ e, decode w = .error e) → checkWord w s = .illegal) ∧
    ∀ i, decode w = .ok i →
      checkWord w s =
        if i ∉ [Instr.nop, .dbl, .xor, .pad, .mask, .zeroize] ∧ (s.keysize = 2#2 ∨ s.keysize = 3#2) then .config
        else if i ∈ [Instr.s2vAd, .s2vNonce] ∧ s.phase ≠ .ad then .sequence
        else if i ∈ [Instr.s2vFinal, .sivEnc, .sivDec] ∧ s.phase = .idle then .sequence
        else if i ∈ [Instr.cmac, .s2vAd, .s2vNonce, .s2vFinal, .ctr, .sivEnc, .sivDec] ∧ bufBytes < s.len.toNat
        then .length
        else if i = .xor ∧ s.len ≠ 16#32 then .length
        else if i = .pad ∧ 15 < s.len.toNat then .length
        else if i = .sivDec ∧ s.len.toNat < 16 then .malformed
        else .noError

/-- 40_control.md R135: an error other than AUTH sets ERRCODE and nothing else; the chain, the operands and the outputs
stay as they were, and BUSY and DONE end the lifecycle. -/
def Obligations.ErrorOutcomeSetsOnlyErrcode : Prop :=
  ∀ (i : Instr) (s : State), check i s ≠ .noError →
    exec i s = .next { s with errcode := check i s, busy := false, done := true } ∧ check i s ≠ .auth

/-- 60_exceptions.md R273, 43_siv.md R236: AUTH comes from SIV_DEC alone, after its checks have passed, and exactly when
the recomputed SIV differs from the received one; the OR of the 16 byte differences sees every bit. -/
def Obligations.AuthOnlyFromSivDec : Prop :=
  (∀ (i : Instr) (s t : State), exec i s = .next t → s.errcode ≠ .auth →
    (t.errcode = .auth ↔
      i = .sivDec ∧ check i s = .noError ∧ receivedSiv s ≠ recomputedSiv Config.aesEnc s)) ∧
  ∀ v v' : Block, tagDiff v v' = 0#8 ↔ v = v'

/-- Unverified plaintext is never released (43_siv.md R236, R237; 60_exceptions.md R285): a SIV_DEC in flight that
passes its checks shows an output exactly when the SIV verifies, and shows nothing at all when it does not. -/
def Obligations.UnverifiedPlaintextIsNeverReleased : Prop :=
  ∀ s : State, State.Inv s → s.busy = true → check .sivDec s = .noError →
    ∃ t, exec .sivDec s = .next t ∧ t.phase = .idle ∧ t.acc = 0#128 ∧
      (t.outValid = true ↔ receivedSiv s = recomputedSiv Config.aesEnc s) ∧
      (receivedSiv s ≠ recomputedSiv Config.aesEnc s → t.errcode = .auth ∧ showsNoOutput t) ∧
      (t.outValid = true →
        t.errcode = .noError ∧ t.result = receivedSiv s ∧
          releasedOutput t = candidatePlaintext Config.aesEnc s)

/-! ### The functions -/

/-- 00_scope.md R10: a block is the big-endian integer of its 16 bytes, and `blk` of a number is its 16-byte big-endian
encoding modulo 2^128. -/
def Obligations.BlocksAreBigEndian : Prop :=
  (∀ bs : List Byte, bs.length = 16 →
    (blockOfBytes bs).toNat = ∑ i ∈ Finset.range 16, (bs.getD i 0#8).toNat * 2 ^ (8 * (15 - i))) ∧
  ∀ v i : Nat, i < 16 → (blockByte (BitVec.ofNat 128 v) i).toNat = v / 2 ^ (8 * (15 - i)) % 256

/-- 41_cmac.md R160: doubling shifts the big-endian integer left and reduces by 0x87 when a bit falls out; its corner
cases, its linearity and its example. -/
def Obligations.DblDoublesInTheField : Prop :=
  (∀ x : Block,
    (dbl x).toNat =
      if 2 ^ 127 ≤ x.toNat then (2 * x.toNat % 2 ^ 128) ^^^ 0x87 else 2 * x.toNat % 2 ^ 128) ∧
  (∀ a b : Block, dbl (a ^^^ b) = dbl a ^^^ dbl b) ∧
  dbl 0#128 = 0#128 ∧
  dbl 0x80000000000000000000000000000000#128 = 0x87#128 ∧
  dbl 0xffffffffffffffffffffffffffffffff#128 = 0xffffffffffffffffffffffffffffff79#128 ∧
  dbl 0x7fffffffffffffffffffffffffffffff#128 = 0xfffffffffffffffffffffffffffffffe#128 ∧
  dbl 0x0e04dfafc1efbf040140582859bf073a#128 = 0x1c09bf5f83df7e080280b050b37e0e74#128

/-- 41_cmac.md R162: the padded block is the string, one byte 0x80, and zeros. -/
def Obligations.PadAppendsOneBitAndZeros : Prop :=
  ∀ m : List Byte, m.length ≤ 15 →
    bytesOfBlock (pad m) = m ++ [0x80#8] ++ List.replicate (15 - m.length) 0#8

/-- 41_cmac.md R163, R164: CMAC of whole blocks followed by a last part is the CBC-MAC chain over the blocks, closed by
the last part under K1 if it is a complete block and padded under K2 if it is not; the empty message has an empty last
part and no block before it. Every message is of this form. -/
def Obligations.CmacIsCbcMacWithSubkeys : Prop :=
  (∀ (enc : BlockCipher) (k : List Byte) (bs : List Block) (tail : List Byte),
    tail.length ≤ 16 → (tail.length = 0 → bs = []) →
    cmac enc k (bs.flatMap bytesOfBlock ++ tail) =
      enc k (bs.foldl (fun x b => enc k (x ^^^ b)) 0#128 ^^^
        if tail.length = 16 then blockOfBytes tail ^^^ dbl (enc k 0#128)
        else pad tail ^^^ dbl (dbl (enc k 0#128)))) ∧
  ∀ m : List Byte, ∃ (bs : List Block) (tail : List Byte),
    tail.length ≤ 16 ∧ (tail.length = 0 → bs = []) ∧ m = bs.flatMap bytesOfBlock ++ tail

/-- 42_s2v.md R204: the final combining step runs CMAC over the whole payload with only its last 16 bytes xored with D,
or, for a payload of fewer than 16 bytes, over the padded payload xored with the double of D. -/
def Obligations.S2vFinalCombines : Prop :=
  ∀ (enc : BlockCipher) (k : List Byte) (d : Block) (p : List Byte),
    (16 ≤ p.length →
      ∃ tl : List Byte, tl.length = p.length ∧
        (∀ j < p.length - 16, tl.getD j 0#8 = p.getD j 0#8) ∧
        (∀ i < 16, tl.getD (p.length - 16 + i) 0#8 = p.getD (p.length - 16 + i) 0#8 ^^^ blockByte d i) ∧
        s2vFinal enc k d p = cmac enc k tl) ∧
    (p.length < 16 → s2vFinal enc k d p = cmac enc k (bytesOfBlock (dbl d ^^^ pad p)))

/-- 43_siv.md R230: the mask clears the top bit of bytes 8 and 12, which are bits 63 and 31 of the integer, and passes
the other 126 bits through; it is idempotent; the rule's example. -/
def Obligations.MaskClearsBits63And31 : Prop :=
  (∀ v : Block,
    (∀ i < 16, blockByte (mask v) i = if i = 8 ∨ i = 12 then blockByte v i &&& 0x7F#8 else blockByte v i) ∧
    (∀ j < 128, (mask v).getLsbD j = (v.getLsbD j && decide (j ≠ 63) && decide (j ≠ 31))) ∧
    mask (mask v) = mask v) ∧
  mask 0x85632d07c6e8f37f950acd320a2ecc93#128 = 0x85632d07c6e8f37f150acd320a2ecc93#128

/-- 43_siv.md R231: the counter block of index i is the initial block plus i modulo 2^128; from a masked block no carry
leaves the low 32 bits within the 256 blocks a buffer can hold. -/
def Obligations.CounterCountsTheWholeBlock : Prop :=
  (∀ (c : Block) (i : Nat), (counterBlock c i).toNat = (c.toNat + i) % 2 ^ 128) ∧
  ∀ (v : Block) (i : Nat), i < 256 → (counterBlock (mask v) i).toNat / 2 ^ 32 = (mask v).toNat / 2 ^ 32

/-- 43_siv.md R232: CTR keeps the length, xors each byte with the keystream byte of its place (so a short last block
takes the leftmost ones), and is its own inverse. -/
def Obligations.CtrIsBytewiseAndSelfInverse : Prop :=
  ∀ (enc : BlockCipher) (k : List Byte) (c : Block) (x : List Byte),
    (ctr enc k c x).length = x.length ∧
    (∀ i < x.length,
      (ctr enc k c x).getD i 0#8 = x.getD i 0#8 ^^^ blockByte (enc k (counterBlock c (i / 16))) (i % 16)) ∧
    ctr enc k c (ctr enc k c x) = x

/-- 40_control.md R134: the key halves for the two supported key sizes. -/
def Obligations.KeySplit : Prop :=
  ∀ s : State,
    (s.keysize = 0#2 →
      key1 s = (List.range 16).map (fun i => s.key.toList.getD i 0#8) ∧
      key2 s = (List.range 16).map (fun i => s.key.toList.getD (16 + i) 0#8)) ∧
    (s.keysize = 1#2 →
      key1 s = (List.range 32).map (fun i => s.key.toList.getD i 0#8) ∧
      key2 s = (List.range 32).map (fun i => s.key.toList.getD (32 + i) 0#8))

/-! ### The bus -/

/-- 60_exceptions.md R280: a transaction answers `err` exactly when its address is misaligned or it is a CMD write with
a partial strobe; then the block is unchanged, and a read returns 0 (20_memory.md R62). A write returns no data: that
the response field holds 0 for one is the model's choice (log entry 6). The field that holds the response is the
model's own and is left out of the comparison. -/
def Obligations.BusErrorsExactlyTwo : Prop :=
  ∀ (s : State) (tr : Transaction), ∃ r, (transact tr s).resp = some r ∧
    (r.err = true ↔
      tr.addr.toNat % 4 ≠ 0 ∨ (tr.kind = .write ∧ tr.addr = 0x008#14 ∧ tr.wstrb ≠ 0xF#4)) ∧
    (r.err = true → r.rdata = 0#32 ∧ { transact tr s with resp := s.resp } = s)

/-- 20_memory.md R68: no read changes the block, whatever its address and whatever is in flight, so a read can be
repeated: a second one answers the same; the write strobe and data of a read do not matter. The schedule and the
response, which are the model's own fields, are left out of the comparison. -/
def Obligations.ReadsHaveNoSideEffect : Prop :=
  ∀ (s : State) (addr : BitVec 14) (w : Word) (wstrb : BitVec 4) (rest : List Event),
    s.events = .host { kind := .read, addr := addr, wdata := w, wstrb := wstrb } :: rest →
    ∃ t, step s = .next t ∧ { t with events := s.events, resp := s.resp } = s ∧
      t.resp = some (busRead addr s) ∧ busRead addr t = busRead addr s

/-- What the control registers read as, in every state: ID and CAPS are the constants of 10_state.md R41, CTRL, STATUS,
LEN and OUTLEN read their value, CMD reads 0 (20_memory.md R66). And 20_memory.md R70: while a command is in flight the
six control registers read as normal, and every other aligned address reads 0. -/
def Obligations.BusyReadsShowOnlyControlRegisters : Prop :=
  ∀ s : State,
    busRead 0x000#14 s = { rdata := 0x53495601#32, err := false } ∧
    busRead 0x004#14 s = { rdata := ctrlWord s, err := false } ∧
    busRead 0x008#14 s = { rdata := 0#32, err := false } ∧
    busRead 0x00C#14 s = { rdata := statusWord s, err := false } ∧
    busRead 0x010#14 s = { rdata := s.len, err := false } ∧
    busRead 0x014#14 s = { rdata := s.outlen, err := false } ∧
    ((busRead 0x018#14 s).err = false ∧ ((busRead 0x018#14 s).rdata.extractLsb' 0 16).toNat = bufBytes ∧
      (busRead 0x018#14 s).rdata.extractLsb' 16 16 = 0#16) ∧
    ∀ addr : BitVec 14, s.busy = true → addr.toNat % 4 = 0 →
      addr ∉ [0x000#14, 0x004#14, 0x00C#14, 0x010#14, 0x014#14, 0x018#14] →
      busRead addr s = { rdata := 0#32, err := false }

/-- 20_memory.md R71: a write that passes the bus checks while a command is in flight changes one sticky bit, or acts on
STATUS as it does at rest (the W1C bits it names are cleared), and changes nothing else; `err` is 0. -/
def Obligations.BusyWritesAreIgnored : Prop :=
  ∀ (s : State) (addr : BitVec 14) (w : Word) (wstrb : BitVec 4), s.busy = true → addr.toNat % 4 = 0 →
    (addr = 0x008#14 → wstrb = 0xF#4 → busWrite addr w wstrb s = { s with cmdOvr := true }) ∧
    (addr = 0x00C#14 →
      busWrite addr w wstrb s = { busWrite addr w wstrb { s with busy := false } with busy := true } ∧
      (wstrb = 0xF#4 →
        busWrite addr w wstrb s =
          { s with
            done := s.done && !w.getLsbD 1
            cmdOvr := s.cmdOvr && !w.getLsbD 3
            busViol := s.busViol && !w.getLsbD 4 })) ∧
    (addr ≠ 0x008#14 → addr ≠ 0x00C#14 → busWrite addr w wstrb s = { s with busViol := true }) ∧
    ((addr = 0x008#14 → wstrb = 0xF#4) →
      ∃ r, (transact { kind := .write, addr := addr, wdata := w, wstrb := wstrb } s).resp = some r ∧ r.err = false)

/-- 20_memory.md R79 (from R71): whatever the host does on the bus while a command is in flight, every operand, the
word in PENDING and every output hold their values until the completion step. -/
def Obligations.OperandsHoldFromIssueToCompletion : Prop :=
  ∀ (s t : State) (trs : List Transaction), s.busy = true → t = trs.foldl (fun u tr => transact tr u) s →
    t.busy = true ∧ t.pending = s.pending ∧ t.keysize = s.keysize ∧ t.irqEn = s.irqEn ∧ t.len = s.len ∧ t.key = s.key ∧
    t.iv = s.iv ∧ t.ibuf = s.ibuf ∧ t.acc = s.acc ∧ t.phase = s.phase ∧ t.result = s.result ∧ t.obuf = s.obuf ∧
    t.outlen = s.outlen ∧ t.outValid = s.outValid ∧ t.errcode = s.errcode

/-- 20_memory.md R72: no read tells the host anything of KEY: two states that differ in KEY alone answer every read
alike, and the KEY region reads 0. -/
def Obligations.KeyIsNeverReadable : Prop :=
  (∀ (s : State) (k : Vector Byte 64) (addr : BitVec 14), busRead addr { s with key := k } = busRead addr s) ∧
  ∀ (s : State) (addr : BitVec 14), addr.toNat % 4 = 0 → 0x020 ≤ addr.toNat → addr.toNat < 0x060 →
    busRead addr s = { rdata := 0#32, err := false }

/-- 20_memory.md R67, R73, R74: at rest, a write to a read-only, reserved or unmapped address changes nothing; a reserved
address reads 0; no such access answers an error. -/
def Obligations.ReadOnlyAndReservedAddresses : Prop :=
  ∀ (s : State) (addr : BitVec 14) (w : Word) (wstrb : BitVec 4), addr.toNat % 4 = 0 →
    (addr ∈ [0x000#14, 0x014#14, 0x018#14, 0x01C#14] ∨ (0x070 ≤ addr.toNat ∧ addr.toNat < 0x1000) ∨
        0x2000 ≤ addr.toNat →
      writeFails addr wstrb = false ∧ (s.busy = false → busWrite addr w wstrb s = s)) ∧
    (addr = 0x01C#14 ∨ (0x090 ≤ addr.toNat ∧ addr.toNat < 0x1000) →
      busRead addr s = { rdata := 0#32, err := false })

/-- 20_memory.md R64, R74: at rest, a word read in IV, RESULT, ACC, the IBUF window or the OBUF window has byte `4k + j` of
the region in lane `j`; lanes past the end of a buffer read 0. -/
def Obligations.ByteRegionsReadByLanes : Prop :=
  ∀ (s : State) (k j : Nat), s.busy = false → j < 4 →
    (k < 4 →
      wordByte (busRead (BitVec.ofNat 14 (0x060 + 4 * k)) s).rdata j = blockByte s.iv (4 * k + j) ∧
      wordByte (busRead (BitVec.ofNat 14 (0x070 + 4 * k)) s).rdata j = blockByte s.result (4 * k + j) ∧
      wordByte (busRead (BitVec.ofNat 14 (0x080 + 4 * k)) s).rdata j = blockByte s.acc (4 * k + j)) ∧
    (k < 1024 →
      wordByte (busRead (BitVec.ofNat 14 (0x1000 + 4 * k)) s).rdata j =
        if 4 * k + j < bufBytes then Memory.read s.ibuf (4 * k + j) else 0#8) ∧
    (k < 2048 →
      wordByte (busRead (BitVec.ofNat 14 (0x2000 + 4 * k)) s).rdata j =
        if 4 * k + j < bufBytes + 16 then Memory.read s.obuf (4 * k + j) else 0#8)

/-- 20_memory.md R64, R65, R69, R74: at rest, a write into KEY, IV or the IBUF window stores each strobed lane as its one
byte and leaves every other byte as it was; lanes in the tail of the IBUF window are ignored. A write into IV or IBUF
changes nothing else, and a write into KEY nothing but PHASE and ACC, and those only in an open chain. -/
def Obligations.ByteRegionsWriteByLanes : Prop :=
  ∀ (s : State) (k : Nat) (w : Word) (wstrb : BitVec 4), s.busy = false →
    (k < 16 →
      let t := busWrite (BitVec.ofNat 14 (0x020 + 4 * k)) w wstrb s
      t = { s with key := t.key, phase := t.phase, acc := t.acc } ∧
      (s.phase = .idle → t = { s with key := t.key }) ∧
      ∀ i < 64, t.key.toList.getD i 0#8 =
        if i / 4 = k ∧ wstrb.getLsbD (i % 4) then wordByte w (i % 4) else s.key.toList.getD i 0#8) ∧
    (k < 4 →
      let t := busWrite (BitVec.ofNat 14 (0x060 + 4 * k)) w wstrb s
      t = { s with iv := t.iv } ∧
      ∀ i < 16, blockByte t.iv i =
        if i / 4 = k ∧ wstrb.getLsbD (i % 4) then wordByte w (i % 4) else blockByte s.iv i) ∧
    (k < 1024 → Memory.wf s.ibuf = true →
      let t := busWrite (BitVec.ofNat 14 (0x1000 + 4 * k)) w wstrb s
      t = { s with ibuf := t.ibuf } ∧
      ∀ a, Memory.read t.ibuf a =
        if a / 4 = k ∧ wstrb.getLsbD (a % 4) ∧ a < bufBytes then wordByte w (a % 4) else Memory.read s.ibuf a)

/-- 20_memory.md R65, R69, 10_state.md R30, R32: at rest, a write of LEN replaces the strobed lanes, keeps the others and
changes nothing else; a write of CTRL replaces IRQ_EN and KEYSIZE, which stand in lane 0, if that lane is strobed, and
changes nothing but PHASE and ACC besides, and those only in an open chain. Every value of LEN reads back as written,
and so does a reserved KEYSIZE; the bits above 2 of CTRL read 0. -/
def Obligations.ControlRegistersMergeByLane : Prop :=
  ∀ (s : State) (w : Word) (wstrb : BitVec 4), s.busy = false →
    (∀ t, t = busWrite 0x010#14 w wstrb s →
      t = { s with len := t.len } ∧
      ∀ j < 4, wordByte t.len j = if wstrb.getLsbD j then wordByte w j else wordByte s.len j) ∧
    (busRead 0x010#14 (busWrite 0x010#14 w 0xF#4 s)).rdata = w ∧
    (∀ t, t = busWrite 0x004#14 w wstrb s →
      t = { s with irqEn := t.irqEn, keysize := t.keysize, phase := t.phase, acc := t.acc } ∧
      (s.phase = .idle → t = { s with irqEn := t.irqEn, keysize := t.keysize }) ∧
      t.irqEn = (if wstrb.getLsbD 0 then w.getLsbD 0 else s.irqEn) ∧
      t.keysize = (if wstrb.getLsbD 0 then w.extractLsb' 1 2 else s.keysize)) ∧
    (busRead 0x004#14 (busWrite 0x004#14 w 0xF#4 s)).rdata = w &&& 7#32 ∧
    (ctrlWord s).getLsbD 0 = s.irqEn ∧ (ctrlWord s).extractLsb' 1 2 = s.keysize ∧
    (ctrlWord s).extractLsb' 3 29 = 0#29

/-- 10_state.md R31, R38, 60_exceptions.md R270: where the fields of STATUS stand in the word, and the numbers of the
phases and of the error codes; the reserved bits read 0. -/
def Obligations.StatusFieldsInTheirPlaces : Prop :=
  (∀ s : State,
    (statusWord s).getLsbD 0 = s.busy ∧ (statusWord s).getLsbD 1 = s.done ∧ (statusWord s).getLsbD 2 = s.outValid ∧
    (statusWord s).getLsbD 3 = s.cmdOvr ∧ (statusWord s).getLsbD 4 = s.busViol ∧
    (statusWord s).extractLsb' 5 3 = 0#3 ∧ (statusWord s).extractLsb' 8 4 = errNumber s.errcode ∧
    (statusWord s).extractLsb' 12 2 = phaseNumber s.phase ∧ (statusWord s).extractLsb' 14 18 = 0#18) ∧
  (∀ e ∈ ([(.noError, 0#4), (.illegal, 1#4), (.config, 2#4), (.sequence, 3#4), (.length, 4#4), (.malformed, 5#4),
      (.auth, 6#4)] : List (ErrCode × BitVec 4)), errNumber e.1 = e.2) ∧
  ∀ p ∈ ([(.idle, 0#2), (.ad, 1#2), (.nonceDone, 2#2)] : List (Phase × BitVec 2)), phaseNumber p.1 = p.2

/-- 42_s2v.md R207: at rest, a write of at least one byte of KEY, or a CTRL write that gives KEYSIZE another value,
stores its bytes and closes an open chain in the same step, and a finishing command then ends with SEQUENCE. Every
other write leaves the chain as it was: one of IV, LEN, IBUF or of IRQ_EN alone, a KEY write with no strobe, one of CMD
or STATUS, one to a read-only or reserved address, a misaligned one, and every write while BUSY = 1. -/
def Obligations.ChainAbort : Prop :=
  ∀ (s t : State) (addr : BitVec 14) (w : Word) (wstrb : BitVec 4), s.phase ≠ .idle → t = busWrite addr w wstrb s →
    (closesOpenChain addr w wstrb s →
      t.phase = .idle ∧ t.acc = 0#128 ∧
      (∀ i < 64, t.key.toList.getD i 0#8 =
        if addr.toNat = 0x020 + 4 * (i / 4) ∧ wstrb.getLsbD (i % 4) then wordByte w (i % 4)
        else s.key.toList.getD i 0#8) ∧
      t.irqEn = (if addr = 0x004#14 then w.getLsbD 0 else s.irqEn) ∧
      t.keysize = (if addr = 0x004#14 then w.extractLsb' 1 2 else s.keysize) ∧
      (t.keysize.toNat ≤ 1 → ∀ i ∈ [Instr.s2vFinal, .sivEnc, .sivDec], check i t = .sequence)) ∧
    (¬ closesOpenChain addr w wstrb s → t.phase = s.phase ∧ t.acc = s.acc)

/-- 60_exceptions.md R281: `irq` is IRQ_EN and DONE at every instant; every completion, successful or not, sets DONE, a
W1C write of DONE, the next issue or a reset drops `irq`, and IRQ_EN masks it without clearing DONE. -/
def Obligations.IrqFollowsDoneAndEnable : Prop :=
  ∀ s : State,
    irq s = (s.irqEn && s.done) ∧
    (∀ t, completion s = .next t → t.done = true ∧ irq t = s.irqEn) ∧
    (∀ w : Word, w.getLsbD 1 = true → irq (busWrite 0x00C#14 w 0xF#4 s) = false) ∧
    (∀ w : Word, irq (issue w s) = false) ∧
    (s.busy = false → ∀ w : Word,
      (busWrite 0x004#14 w 0xF#4 s).done = s.done ∧ irq (busWrite 0x004#14 w 0xF#4 s) = (w.getLsbD 0 && s.done)) ∧
    irq (resetEvent s) = false

/-- 60_exceptions.md R282: a sticky bit that is set stays set through issue, every command's completion and every
transaction, unless the host writes 1 to it in STATUS or a RESET comes. -/
def Obligations.StickyBitsStick : Prop :=
  ∀ (s t : State), step s = .next t → (∀ rest, s.events ≠ .reset :: rest) →
    ((∀ tr rest, s.events = .host tr :: rest → tr.kind = .write → tr.addr = 0x00C#14 → tr.wdata.getLsbD 3 = false) →
      s.cmdOvr = true → t.cmdOvr = true) ∧
    ((∀ tr rest, s.events = .host tr :: rest → tr.kind = .write → tr.addr = 0x00C#14 → tr.wdata.getLsbD 4 = false) →
      s.busViol = true → t.busViol = true)

/-! ### Reset and the invariant -/

/-- 70_reset_and_hazards.md R310: a RESET event, from every state and with a command in flight too, leaves every element
of the block at its reset value, in one step. The schedule and the response, which are the model's own fields, are left
out of the comparison. -/
def Obligations.ResetClearsEverything : Prop :=
  ∀ (s : State) (rest : List Event), s.events = .reset :: rest →
    ∃ t, step s = .next t ∧
      ctrlWord t = 0#32 ∧ statusWord t = 0#32 ∧ t.busy = false ∧ t.len = 0#32 ∧ t.outlen = 0#32 ∧
      t.key = Vector.replicate 64 0#8 ∧ t.iv = 0#128 ∧ t.result = 0#128 ∧ t.acc = 0#128 ∧ t.phase = .idle ∧
      (∀ a, Memory.read t.ibuf a = 0#8) ∧ (∀ a, Memory.read t.obuf a = 0#8) ∧ t.pending = 0#32 ∧ irq t = false ∧
      { t with events := [], resp := none } = State.reset

/-- The reset state meets the invariant (10_state.md R46). -/
def Obligations.ResetMeetsTheInvariant : Prop := State.Inv State.reset

/-- Every step keeps the invariant: R46's three clauses, and the canonical form of the two buffers inside their
capacity, with OBUF zero past OUTLEN (10_state.md R46; the canonical form is the model's, log entry 7). -/
def Obligations.StepKeepsTheInvariant : Prop :=
  ∀ s t : State, State.Inv s → step s = .next t → State.Inv t

/-! ### Headlines -/

/-- 42_s2v.md R206: S2V_INIT, S2V_AD with each string, S2V_NONCE and S2V_FINAL compute the source's S2V over the strings
and the nonce, if there is one. -/
def Obligations.ChainComputesS2v : Prop :=
  ∀ (s : State) (ads : List (List Byte)) (nonce p : List Byte), State.Inv s → s.keysize.toNat ≤ 1 →
    (∀ a ∈ ads, a.length ≤ bufBytes) → nonce.length ≤ bufBytes → p.length ≤ bufBytes →
    ∃ t u, runChain ads nonce s = some t ∧ runOn .s2vFinal p t = some u ∧ u.errcode = .noError ∧
      u.result = s2v Config.aesEnc (key1 s) (chainStrings ads nonce) p ∧ u.phase = .idle ∧ u.acc = 0#128

/-- 43_siv.md R238: whatever SIV_ENC answers for a key, associated data, a nonce and a plaintext that fits, SIV_DEC after
the same chain verifies it and releases the plaintext. -/
def Obligations.DecryptUndoesEncrypt : Prop :=
  ∀ (s : State) (ads : List (List Byte)) (nonce p : List Byte), State.Inv s → s.keysize.toNat ≤ 1 →
    (∀ a ∈ ads, a.length ≤ bufBytes) → nonce.length ≤ bufBytes → p.length + 16 ≤ bufBytes →
    ∃ t u t' u', runChain ads nonce s = some t ∧ runOn .sivEnc p t = some u ∧
      (releasedOutput u).length = 16 + p.length ∧
      runChain ads nonce u = some t' ∧ runOn .sivDec (releasedOutput u) t' = some u' ∧
      u'.errcode = .noError ∧ u'.outValid = true ∧ releasedOutput u' = p
end

