-- ==== Sys2Proof/Laws/Bytes.lean ====
section
/-! SUPPORT. The laws of bytes, blocks and bus words: a block is its 16 bytes, a word is its four lanes, and what the
bitwise operations do byte by byte. -/

namespace Sys2Proof.Machine

theorem getLsbD_blockByte (x : Block) (i j : Nat) :
    (blockByte x i).getLsbD j = (decide (j < 8) && x.getLsbD (8 * (15 - i) + j)) := by
  simp [blockByte, BitVec.getLsbD_extractLsb']

/-- A block is decided by its 16 bytes. -/
theorem block_ext {x y : Block} (e : ∀ i < 16, blockByte x i = blockByte y i) : x = y := by
  refine BitVec.eq_of_getLsbD_eq fun j hj => ?_
  have h := congrArg (fun b => b.getLsbD (j % 8)) (e (15 - j / 8) (by omega))
  have hm : j % 8 < 8 := Nat.mod_lt j (by omega)
  have hidx : 8 * (15 - (15 - j / 8)) + j % 8 = j := by omega
  simpa only [getLsbD_blockByte, hm, decide_true, Bool.true_and, hidx] using h

@[simp] theorem blockByte_xor (x y : Block) (i : Nat) : blockByte (x ^^^ y) i = blockByte x i ^^^ blockByte y i := by
  refine BitVec.eq_of_getLsbD_eq fun j hj => ?_
  simp only [getLsbD_blockByte, BitVec.getLsbD_xor, hj, decide_true, Bool.true_and]

@[simp] theorem blockByte_and (x y : Block) (i : Nat) : blockByte (x &&& y) i = blockByte x i &&& blockByte y i := by
  refine BitVec.eq_of_getLsbD_eq fun j hj => ?_
  simp only [getLsbD_blockByte, BitVec.getLsbD_and, hj, decide_true, Bool.true_and]

@[simp] theorem blockByte_zero (i : Nat) : blockByte 0#128 i = 0#8 := by
  refine BitVec.eq_of_getLsbD_eq fun j hj => ?_
  simp only [getLsbD_blockByte, BitVec.getLsbD_zero, Bool.and_false]

@[simp] theorem length_bytesOfBlock (x : Block) : (bytesOfBlock x).length = 16 := by simp [bytesOfBlock]

theorem getElem_bytesOfBlock (x : Block) (i : Nat) (h : i < (bytesOfBlock x).length) :
    (bytesOfBlock x)[i] = blockByte x i := by simp [bytesOfBlock]

/-- The shift-and-or fold behind `blk`, bit by bit. -/
theorem getLsbD_foldl_bytes (bs : List Byte) (acc : Block) (j : Nat) (hj : j < 128) :
    (bs.foldl (fun (acc : Block) (b : Byte) => (acc <<< 8) ||| b.setWidth 128) acc).getLsbD j =
      if j < 8 * bs.length then (bs.getD (bs.length - 1 - j / 8) 0#8).getLsbD (j % 8)
      else acc.getLsbD (j - 8 * bs.length) := by
  induction bs generalizing acc with
  | nil => simp
  | cons b bs ih =>
    rw [List.foldl_cons, ih]
    by_cases h1 : j < 8 * bs.length
    · rw [if_pos h1, if_pos (by simp only [List.length_cons]; omega),
        show (b :: bs).length - 1 - j / 8 = (bs.length - 1 - j / 8) + 1 by simp only [List.length_cons]; omega,
        List.getD_cons_succ]
    · rw [if_neg h1]
      by_cases h2 : j < 8 * (b :: bs).length
      · have h2' : j < 8 * (bs.length + 1) := by simpa only [List.length_cons] using h2
        rw [if_pos h2, show (b :: bs).length - 1 - j / 8 = 0 by simp only [List.length_cons]; omega, List.getD_cons_zero]
        have h8 : j % 8 < 8 := by omega
        have h9 : j % 8 < 128 := by omega
        rw [show j - 8 * bs.length = j % 8 by omega]
        simp [h8, h9]
      · have h2' : ¬ j < 8 * (bs.length + 1) := by simpa only [List.length_cons] using h2
        rw [if_neg h2]
        have h8 : ¬ j - 8 * bs.length < 8 := by omega
        have h9 : j - 8 * bs.length < 128 := by omega
        simp only [BitVec.getLsbD_or, BitVec.getLsbD_shiftLeft, h8, h9, List.length_cons, BitVec.getLsbD_setWidth]
        rw [show j - 8 * bs.length - 8 = j - 8 * (bs.length + 1) by omega]
        simp [BitVec.getLsbD_of_ge b (j - 8 * bs.length) (by omega)]

/-- Byte `i` of `blk` of a 16-byte string. -/
theorem blockByte_blockOfBytes {bs : List Byte} (h : bs.length = 16) {i : Nat} (hi : i < 16) :
    blockByte (blockOfBytes bs) i = bs.getD i 0#8 := by
  refine BitVec.eq_of_getLsbD_eq fun j hj => ?_
  rw [getLsbD_blockByte, blockOfBytes, getLsbD_foldl_bytes _ _ _ (by omega), h, if_pos (by omega)]
  rw [show 16 - 1 - (8 * (15 - i) + j) / 8 = i by omega, show (8 * (15 - i) + j) % 8 = j by omega]
  simp [hj]

/-- `blk` undoes the bytes of a block. -/
@[simp] theorem blockOfBytes_bytesOfBlock (x : Block) : blockOfBytes (bytesOfBlock x) = x := by
  refine block_ext fun i hi => ?_
  rw [blockByte_blockOfBytes (length_bytesOfBlock x) hi, List.getD_eq_getElem _ _ (by simpa using hi),
    getElem_bytesOfBlock]

/-- The bytes of `blk` of a 16-byte string are the string. -/
theorem bytesOfBlock_blockOfBytes {bs : List Byte} (h : bs.length = 16) : bytesOfBlock (blockOfBytes bs) = bs := by
  refine List.ext_getElem (by simp [h]) fun i h1 h2 => ?_
  rw [getElem_bytesOfBlock, blockByte_blockOfBytes h (by omega), List.getD_eq_getElem]

@[simp] theorem length_xorBytes (s t : List Byte) : (xorBytes s t).length = min s.length t.length := by
  simp [xorBytes]

theorem length_slice (s : List Byte) (a b : Nat) : (slice s a b).length = min (b - a) (s.length - a) := by
  simp [slice]

theorem getElem_slice (s : List Byte) (a b i : Nat) (h : i < (slice s a b).length) :
    (slice s a b)[i] = s[a + i]'(by rw [length_slice] at h; omega) := by
  simp [slice]

/-! ### Lanes of a word -/

theorem getLsbD_wordByte (w : Word) (i j : Nat) :
    (wordByte w i).getLsbD j = (decide (j < 8) && w.getLsbD (8 * i + j)) := by
  simp [wordByte, BitVec.getLsbD_extractLsb']

theorem getLsbD_laneWord (f : Nat → Byte) {j : Nat} (hj : j < 32) :
    (laneWord f).getLsbD j = (f (j / 8)).getLsbD (j % 8) := by
  have h4 : j / 8 = 0 ∨ j / 8 = 1 ∨ j / 8 = 2 ∨ j / 8 = 3 := by omega
  simp only [laneWord, BitVec.getLsbD_append]
  rcases h4 with h | h | h | h <;> rw [h]
  all_goals
    simp (disch := omega) only [if_pos, if_neg]
    congr 1
    omega

/-- Lane `j` of the word with lanes `f`. -/
theorem wordByte_laneWord (f : Nat → Byte) {j : Nat} (hj : j < 4) : wordByte (laneWord f) j = f j := by
  refine BitVec.eq_of_getLsbD_eq fun b hb => ?_
  rw [getLsbD_wordByte, getLsbD_laneWord _ (by omega), show (8 * j + b) / 8 = j by omega,
    show (8 * j + b) % 8 = b by omega]
  simp [hb]

/-- A word is decided by its four lanes. -/
theorem word_ext {w w' : Word} (e : ∀ j < 4, wordByte w j = wordByte w' j) : w = w' := by
  refine BitVec.eq_of_getLsbD_eq fun b hb => ?_
  have h := congrArg (fun x => x.getLsbD (b % 8)) (e (b / 8) (by omega))
  have hm : b % 8 < 8 := Nat.mod_lt b (by omega)
  simpa only [getLsbD_wordByte, hm, decide_true, Bool.true_and, Nat.div_add_mod] using h

/-- The merge, lane by lane (20_memory.md R65). -/
theorem wordByte_mergeLanes (old new : Word) (wstrb : BitVec 4) {j : Nat} (hj : j < 4) :
    wordByte (mergeLanes old new wstrb) j = if wstrb.getLsbD j then wordByte new j else wordByte old j :=
  wordByte_laneWord _ hj

/-- A merge with no lane strobed changes nothing. -/
@[simp] theorem mergeLanes_none (old new : Word) : mergeLanes old new 0#4 = old :=
  word_ext fun j hj => by simp [wordByte_mergeLanes, hj]

/-- A merge with every lane strobed is the new word. -/
@[simp] theorem mergeLanes_all (old new : Word) : mergeLanes old new 0xF#4 = new :=
  word_ext fun j hj => by
    rw [wordByte_mergeLanes _ _ _ hj, if_pos]
    rcases (by omega : j = 0 ∨ j = 1 ∨ j = 2 ∨ j = 3) with rfl | rfl | rfl | rfl <;> rfl

/-! ### Writing bytes of a block -/

theorem blockByte_setBlockByte (x : Block) {i : Nat} (hi : i < 16) (b : Byte) {k : Nat} (hk : k < 16) :
    blockByte (setBlockByte x i b) k = if k = i then b else blockByte x k := by
  refine BitVec.eq_of_getLsbD_eq fun j hj => ?_
  have hlt : 8 * (15 - k) + j < 128 := by omega
  rw [getLsbD_blockByte, setBlockByte]
  have hff : ∀ n : Nat, (0xFF#128).getLsbD n = decide (n < 8) := by
    intro n
    by_cases hn : n < 128
    · exact (by decide : ∀ n < 128, (0xFF#128).getLsbD n = decide (n < 8)) n hn
    · rw [BitVec.getLsbD_of_ge _ _ (by omega)]; simp; omega
  simp only [BitVec.getLsbD_or, BitVec.getLsbD_and, BitVec.getLsbD_not, BitVec.getLsbD_shiftLeft, hff,
    BitVec.getLsbD_setWidth, hlt, hj, decide_true, Bool.true_and]
  by_cases hki : k = i
  · subst hki
    rw [if_pos rfl]
    have h1 : ¬ 8 * (15 - k) + j < 8 * (15 - k) := by omega
    have h2 : 8 * (15 - k) + j - 8 * (15 - k) = j := by omega
    simp [h1, h2, hj, show j < 128 by omega]
  · rw [if_neg hki, getLsbD_blockByte]
    by_cases hlo : 8 * (15 - k) + j < 8 * (15 - i)
    · simp [hlo, hj]
    · have h8 : ¬ 8 * (15 - k) + j - 8 * (15 - i) < 8 := by omega
      simp [hlo, hj, h8, BitVec.getLsbD_of_ge b (8 * (15 - k) + j - 8 * (15 - i)) (by omega)]

end Sys2Proof.Machine
end

