-- ==== Sys2Proof/Laws/Memory.lean ====
section
/-! SUPPORT. The laws of the byte buffers: read after write, the canonical form is kept, equal reads mean equal
buffers, and what storing and reading a byte string does. -/

namespace Sys2Proof.Machine

@[simp] theorem Memory.read_nil (a : Nat) : Memory.read [] a = 0#8 := rfl

theorem Memory.read_cons (b : Nat) (v : Byte) (m : Memory) (a : Nat) :
    Memory.read ((b, v) :: m) a = if a = b then v else Memory.read m a := rfl

/-! ### The canonical form -/

theorem Memory.wfFrom_cons {lo a : Nat} {v : Byte} {m : Memory} :
    Memory.wfFrom lo ((a, v) :: m) = true ↔ lo ≤ a ∧ v ≠ 0#8 ∧ Memory.wfFrom (a + 1) m = true := by
  simp [Memory.wfFrom, Memory.unlisted, and_assoc]

theorem Memory.wfFrom_mono {lo lo' : Nat} {m : Memory} (h : Memory.wfFrom lo m = true) (hle : lo' ≤ lo) :
    Memory.wfFrom lo' m = true := by
  cases m with
  | nil => rfl
  | cons c m =>
    obtain ⟨a, v⟩ := c
    rw [Memory.wfFrom_cons] at h ⊢
    exact ⟨by omega, h.2⟩

/-- Below the first offset nothing is listed. -/
theorem Memory.read_lt {lo : Nat} {m : Memory} (h : Memory.wfFrom lo m = true) {a : Nat} (ha : a < lo) :
    Memory.read m a = 0#8 := by
  induction m generalizing lo with
  | nil => rfl
  | cons c m ih =>
    obtain ⟨b, v⟩ := c
    rw [Memory.wfFrom_cons] at h
    rw [Memory.read_cons, if_neg (by omega)]
    exact ih h.2.2 (by omega)

/-- Writing keeps the canonical form. -/
theorem Memory.wfFrom_write {lo : Nat} {m : Memory} (h : Memory.wfFrom lo m = true) {a : Nat} (ha : lo ≤ a) (v : Byte) :
    Memory.wfFrom lo (Memory.write m a v) = true := by
  induction m generalizing lo with
  | nil =>
    unfold Memory.write
    split
    · rfl
    · rw [Memory.wfFrom_cons]; exact ⟨ha, by assumption, rfl⟩
  | cons c m ih =>
    obtain ⟨b, w⟩ := c
    have h' := Memory.wfFrom_cons.1 h
    unfold Memory.write
    split
    · split
      · exact h
      · rw [Memory.wfFrom_cons, Memory.wfFrom_cons]
        exact ⟨ha, by assumption, by omega, h'.2⟩
    · split
      · split
        · exact Memory.wfFrom_mono h'.2.2 (by omega)
        · rw [Memory.wfFrom_cons]
          refine ⟨ha, by assumption, ?_⟩
          subst a
          exact h'.2.2
      · rw [Memory.wfFrom_cons]
        exact ⟨h'.1, h'.2.1, ih h'.2.2 (by omega)⟩

theorem Memory.wf_nil : Memory.wf [] = true := rfl

/-- Writing keeps the canonical form. -/
theorem Memory.wf_write {m : Memory} (h : Memory.wf m = true) (a : Nat) (v : Byte) :
    Memory.wf (Memory.write m a v) = true :=
  Memory.wfFrom_write h (Nat.zero_le a) v

/-! ### Read after write -/

theorem Memory.read_write_from {lo : Nat} {m : Memory} (h : Memory.wfFrom lo m = true) (a : Nat) (v : Byte) (b : Nat) :
    Memory.read (Memory.write m a v) b = if b = a then v else Memory.read m b := by
  induction m generalizing lo with
  | nil =>
    unfold Memory.write
    split
    · next hv => subst hv; split <;> rfl
    · rw [Memory.read_cons]
  | cons c m ih =>
    obtain ⟨d, w⟩ := c
    have h' := Memory.wfFrom_cons.1 h
    unfold Memory.write
    split
    · next hlt =>
      split
      · next hv =>
        subst hv
        split
        · next hb =>
          subst hb
          exact Memory.read_lt (lo := d) (Memory.wfFrom_cons.2 ⟨le_rfl, h'.2⟩) hlt
        · rfl
      · rw [Memory.read_cons]
    · next hlt =>
      split
      · next had =>
        subst had
        split
        · next hv =>
          subst hv
          rw [Memory.read_cons]
          split
          · next hb => subst hb; exact Memory.read_lt h'.2.2 (by omega)
          · rfl
        · rw [Memory.read_cons, Memory.read_cons]
          split <;> rfl
      · next had =>
        rw [Memory.read_cons, Memory.read_cons, ih h'.2.2]
        by_cases hb : b = d
        · subst hb; rw [if_pos rfl, if_neg (fun e => had e.symm), if_pos rfl]
        · rw [if_neg hb, if_neg hb]

/-- The read-after-write law: a write changes the byte it names and no other. -/
theorem Memory.read_write {m : Memory} (h : Memory.wf m = true) (a : Nat) (v : Byte) (b : Nat) :
    Memory.read (Memory.write m a v) b = if b = a then v else Memory.read m b :=
  Memory.read_write_from h a v b

/-- Canonical buffers that read alike are equal. -/
theorem Memory.eq_of_read_from {lo : Nat} {m m' : Memory} (h : Memory.wfFrom lo m = true) (h' : Memory.wfFrom lo m' = true)
    (e : ∀ a, Memory.read m a = Memory.read m' a) : m = m' := by
  induction m generalizing lo m' with
  | nil =>
    cases m' with
    | nil => rfl
    | cons c m' =>
      obtain ⟨b, w⟩ := c
      have := e b
      rw [Memory.read_cons, if_pos rfl] at this
      exact absurd this.symm (Memory.wfFrom_cons.1 h').2.1
  | cons c m ih =>
    obtain ⟨a, v⟩ := c
    obtain ⟨-, hv, hm⟩ := Memory.wfFrom_cons.1 h
    cases m' with
    | nil =>
      have := e a
      rw [Memory.read_cons, if_pos rfl] at this
      exact absurd this hv
    | cons c' m' =>
      obtain ⟨b, w⟩ := c'
      obtain ⟨-, hw, hm'⟩ := Memory.wfFrom_cons.1 h'
      have hab : a = b := by
        rcases Nat.lt_trichotomy a b with hlt | heq | hgt
        · have := e a
          rw [Memory.read_cons, if_pos rfl, Memory.read_cons, if_neg (by omega),
            Memory.read_lt hm' (by omega)] at this
          exact absurd this hv
        · exact heq
        · have := e b
          rw [Memory.read_cons, if_neg (by omega), Memory.read_lt hm (by omega), Memory.read_cons, if_pos rfl] at this
          exact absurd this.symm hw
      subst hab
      have hvw : v = w := by simpa [Memory.read_cons] using e a
      subst hvw
      congr 1
      refine ih hm hm' fun x => ?_
      have := e x
      by_cases hx : x = a
      · subst hx; rw [Memory.read_lt hm (by omega), Memory.read_lt hm' (by omega)]
      · simpa [Memory.read_cons, hx] using this

/-- Canonical buffers that read alike are equal. -/
theorem Memory.eq_of_read {m m' : Memory} (h : Memory.wf m = true) (h' : Memory.wf m' = true)
    (e : ∀ a, Memory.read m a = Memory.read m' a) : m = m' :=
  Memory.eq_of_read_from h h' e

/-! ### The capacity -/

theorem Memory.below_cons {n a : Nat} {v : Byte} {m : Memory} :
    Memory.below n ((a, v) :: m) = true ↔ a < n ∧ Memory.below n m = true := by
  simp [Memory.below]

theorem Memory.below_mono {n n' : Nat} {m : Memory} (h : Memory.below n m = true) (hle : n ≤ n') :
    Memory.below n' m = true := by
  simp only [Memory.below, List.all_eq_true, decide_eq_true_eq] at h ⊢
  exact fun c hc => Nat.lt_of_lt_of_le (h c hc) hle

theorem Memory.read_of_below {n : Nat} {m : Memory} (h : Memory.below n m = true) {a : Nat} (ha : n ≤ a) :
    Memory.read m a = 0#8 := by
  induction m with
  | nil => rfl
  | cons c m ih =>
    obtain ⟨b, v⟩ := c
    rw [Memory.below_cons] at h
    rw [Memory.read_cons, if_neg (by omega)]
    exact ih h.2

theorem Memory.below_write {n : Nat} {m : Memory} (h : Memory.below n m = true) {a : Nat} (ha : a < n) (v : Byte) :
    Memory.below n (Memory.write m a v) = true := by
  induction m with
  | nil =>
    unfold Memory.write
    split
    · rfl
    · exact Memory.below_cons.2 ⟨ha, rfl⟩
  | cons c m ih =>
    obtain ⟨b, w⟩ := c
    have h' := Memory.below_cons.1 h
    unfold Memory.write
    split
    · split
      · exact h
      · exact Memory.below_cons.2 ⟨ha, h⟩
    · split
      · split
        · exact h'.2
        · exact Memory.below_cons.2 ⟨ha, h'.2⟩
      · exact Memory.below_cons.2 ⟨h'.1, ih h'.2⟩

/-! ### Byte strings in a buffer -/

theorem wf_storeBytes {m : Memory} (h : Memory.wf m = true) (a : Nat) (bs : List Byte) :
    Memory.wf (storeBytes m a bs) = true := by
  induction bs generalizing m a with
  | nil => exact h
  | cons b bs ih => exact ih (Memory.wf_write h a b) (a + 1)

theorem below_storeBytes {n : Nat} {m : Memory} (h : Memory.below n m = true) {a : Nat} {bs : List Byte}
    (ha : a + bs.length ≤ n) : Memory.below n (storeBytes m a bs) = true := by
  induction bs generalizing m a with
  | nil => exact h
  | cons b bs ih =>
    simp only [List.length_cons] at ha
    exact ih (Memory.below_write h (by omega) b) (by omega)

/-- What a stored byte string reads as: its bytes in their places, everything else as before. -/
theorem read_storeBytes {m : Memory} (h : Memory.wf m = true) (a : Nat) (bs : List Byte) (x : Nat) :
    Memory.read (storeBytes m a bs) x =
      if a ≤ x ∧ x < a + bs.length then bs.getD (x - a) 0#8 else Memory.read m x := by
  induction bs generalizing m a with
  | nil => rw [if_neg (by simp only [List.length_nil]; omega)]; rfl
  | cons b bs ih =>
    rw [storeBytes, ih (Memory.wf_write h a b), Memory.read_write h, List.length_cons]
    by_cases hx : x = a
    · subst hx
      rw [if_neg (by omega), if_pos rfl, if_pos (by omega), Nat.sub_self]
      rfl
    · by_cases hin : a + 1 ≤ x ∧ x < a + 1 + bs.length
      · rw [if_pos hin, if_pos (by omega), show x - a = (x - (a + 1)) + 1 by omega, List.getD_cons_succ]
      · rw [if_neg hin, if_neg hx, if_neg (by omega)]

@[simp] theorem length_readBytes (m : Memory) (a n : Nat) : (readBytes m a n).length = n := by simp [readBytes]

theorem getElem_readBytes (m : Memory) (a n i : Nat) (h : i < (readBytes m a n).length) :
    (readBytes m a n)[i] = Memory.read m (a + i) := by simp [readBytes]

theorem getD_readBytes (m : Memory) (a : Nat) {n i : Nat} (h : i < n) :
    (readBytes m a n).getD i 0#8 = Memory.read m (a + i) := by
  rw [List.getD_eq_getElem _ _ (by simpa using h), getElem_readBytes]

/-- Reading back what was stored. -/
theorem readBytes_storeBytes {m : Memory} (h : Memory.wf m = true) (a : Nat) (bs : List Byte) :
    readBytes (storeBytes m a bs) a bs.length = bs := by
  refine List.ext_getElem (by simp) fun i h1 h2 => ?_
  rw [getElem_readBytes, read_storeBytes h, if_pos (by omega), Nat.add_sub_cancel_left]
  simp [List.getD_eq_getElem?_getD, h2]

/-- Reading is decided by the bytes read. -/
theorem readBytes_congr {m m' : Memory} {a n : Nat} (e : ∀ i < n, Memory.read m (a + i) = Memory.read m' (a + i)) :
    readBytes m a n = readBytes m' a n := by
  refine List.map_congr_left fun i hi => e i (List.mem_range.1 hi)

end Sys2Proof.Machine
end

