-- ==== Sys2Proof/Laws/State.lean ====
section
/-! SUPPORT. One lemma per field of State for each shared operation on it, true by rfl: no later proof unfolds a
record update. -/

namespace Sys2Proof.Machine

variable (s : State)

/-! ### issue -/

@[simp] theorem issue_irqEn (w : Word) : (issue w s).irqEn = s.irqEn := rfl
@[simp] theorem issue_keysize (w : Word) : (issue w s).keysize = s.keysize := rfl
@[simp] theorem issue_busy (w : Word) : (issue w s).busy = true := rfl
@[simp] theorem issue_done (w : Word) : (issue w s).done = false := rfl
@[simp] theorem issue_outValid (w : Word) : (issue w s).outValid = false := rfl
@[simp] theorem issue_cmdOvr (w : Word) : (issue w s).cmdOvr = s.cmdOvr := rfl
@[simp] theorem issue_busViol (w : Word) : (issue w s).busViol = s.busViol := rfl
@[simp] theorem issue_errcode (w : Word) : (issue w s).errcode = .noError := rfl
@[simp] theorem issue_phase (w : Word) : (issue w s).phase = s.phase := rfl
@[simp] theorem issue_len (w : Word) : (issue w s).len = s.len := rfl
@[simp] theorem issue_outlen (w : Word) : (issue w s).outlen = 0#32 := rfl
@[simp] theorem issue_key (w : Word) : (issue w s).key = s.key := rfl
@[simp] theorem issue_iv (w : Word) : (issue w s).iv = s.iv := rfl
@[simp] theorem issue_result (w : Word) : (issue w s).result = 0#128 := rfl
@[simp] theorem issue_acc (w : Word) : (issue w s).acc = s.acc := rfl
@[simp] theorem issue_ibuf (w : Word) : (issue w s).ibuf = s.ibuf := rfl
@[simp] theorem issue_obuf (w : Word) : (issue w s).obuf = [] := rfl
@[simp] theorem issue_pending (w : Word) : (issue w s).pending = w := rfl
@[simp] theorem issue_events (w : Word) : (issue w s).events = s.events := rfl
@[simp] theorem issue_resp (w : Word) : (issue w s).resp = s.resp := rfl

/-! ### takeError -/

@[simp] theorem takeError_irqEn (e : ErrCode) : (takeError e s).irqEn = s.irqEn := rfl
@[simp] theorem takeError_keysize (e : ErrCode) : (takeError e s).keysize = s.keysize := rfl
@[simp] theorem takeError_busy (e : ErrCode) : (takeError e s).busy = s.busy := rfl
@[simp] theorem takeError_done (e : ErrCode) : (takeError e s).done = s.done := rfl
@[simp] theorem takeError_outValid (e : ErrCode) : (takeError e s).outValid = s.outValid := rfl
@[simp] theorem takeError_cmdOvr (e : ErrCode) : (takeError e s).cmdOvr = s.cmdOvr := rfl
@[simp] theorem takeError_busViol (e : ErrCode) : (takeError e s).busViol = s.busViol := rfl
@[simp] theorem takeError_errcode (e : ErrCode) : (takeError e s).errcode = e := rfl
@[simp] theorem takeError_phase (e : ErrCode) : (takeError e s).phase = s.phase := rfl
@[simp] theorem takeError_len (e : ErrCode) : (takeError e s).len = s.len := rfl
@[simp] theorem takeError_outlen (e : ErrCode) : (takeError e s).outlen = s.outlen := rfl
@[simp] theorem takeError_key (e : ErrCode) : (takeError e s).key = s.key := rfl
@[simp] theorem takeError_iv (e : ErrCode) : (takeError e s).iv = s.iv := rfl
@[simp] theorem takeError_result (e : ErrCode) : (takeError e s).result = s.result := rfl
@[simp] theorem takeError_acc (e : ErrCode) : (takeError e s).acc = s.acc := rfl
@[simp] theorem takeError_ibuf (e : ErrCode) : (takeError e s).ibuf = s.ibuf := rfl
@[simp] theorem takeError_obuf (e : ErrCode) : (takeError e s).obuf = s.obuf := rfl
@[simp] theorem takeError_pending (e : ErrCode) : (takeError e s).pending = s.pending := rfl
@[simp] theorem takeError_events (e : ErrCode) : (takeError e s).events = s.events := rfl
@[simp] theorem takeError_resp (e : ErrCode) : (takeError e s).resp = s.resp := rfl

/-! ### finish -/

@[simp] theorem finish_irqEn : (finish s).irqEn = s.irqEn := rfl
@[simp] theorem finish_keysize : (finish s).keysize = s.keysize := rfl
@[simp] theorem finish_busy : (finish s).busy = false := rfl
@[simp] theorem finish_done : (finish s).done = true := rfl
@[simp] theorem finish_outValid : (finish s).outValid = s.outValid := rfl
@[simp] theorem finish_cmdOvr : (finish s).cmdOvr = s.cmdOvr := rfl
@[simp] theorem finish_busViol : (finish s).busViol = s.busViol := rfl
@[simp] theorem finish_errcode : (finish s).errcode = s.errcode := rfl
@[simp] theorem finish_phase : (finish s).phase = s.phase := rfl
@[simp] theorem finish_len : (finish s).len = s.len := rfl
@[simp] theorem finish_outlen : (finish s).outlen = s.outlen := rfl
@[simp] theorem finish_key : (finish s).key = s.key := rfl
@[simp] theorem finish_iv : (finish s).iv = s.iv := rfl
@[simp] theorem finish_result : (finish s).result = s.result := rfl
@[simp] theorem finish_acc : (finish s).acc = s.acc := rfl
@[simp] theorem finish_ibuf : (finish s).ibuf = s.ibuf := rfl
@[simp] theorem finish_obuf : (finish s).obuf = s.obuf := rfl
@[simp] theorem finish_pending : (finish s).pending = s.pending := rfl
@[simp] theorem finish_events : (finish s).events = s.events := rfl
@[simp] theorem finish_resp : (finish s).resp = s.resp := rfl

/-! ### closeChain -/

@[simp] theorem closeChain_irqEn : (closeChain s).irqEn = s.irqEn := rfl
@[simp] theorem closeChain_keysize : (closeChain s).keysize = s.keysize := rfl
@[simp] theorem closeChain_busy : (closeChain s).busy = s.busy := rfl
@[simp] theorem closeChain_done : (closeChain s).done = s.done := rfl
@[simp] theorem closeChain_outValid : (closeChain s).outValid = s.outValid := rfl
@[simp] theorem closeChain_cmdOvr : (closeChain s).cmdOvr = s.cmdOvr := rfl
@[simp] theorem closeChain_busViol : (closeChain s).busViol = s.busViol := rfl
@[simp] theorem closeChain_errcode : (closeChain s).errcode = s.errcode := rfl
@[simp] theorem closeChain_phase : (closeChain s).phase = .idle := rfl
@[simp] theorem closeChain_len : (closeChain s).len = s.len := rfl
@[simp] theorem closeChain_outlen : (closeChain s).outlen = s.outlen := rfl
@[simp] theorem closeChain_key : (closeChain s).key = s.key := rfl
@[simp] theorem closeChain_iv : (closeChain s).iv = s.iv := rfl
@[simp] theorem closeChain_result : (closeChain s).result = s.result := rfl
@[simp] theorem closeChain_acc : (closeChain s).acc = 0#128 := rfl
@[simp] theorem closeChain_ibuf : (closeChain s).ibuf = s.ibuf := rfl
@[simp] theorem closeChain_obuf : (closeChain s).obuf = s.obuf := rfl
@[simp] theorem closeChain_pending : (closeChain s).pending = s.pending := rfl
@[simp] theorem closeChain_events : (closeChain s).events = s.events := rfl
@[simp] theorem closeChain_resp : (closeChain s).resp = s.resp := rfl

/-! ### abortChain -/

@[simp] theorem abortChain_irqEn : (abortChain s).irqEn = s.irqEn := by unfold abortChain; split <;> rfl
@[simp] theorem abortChain_keysize : (abortChain s).keysize = s.keysize := by unfold abortChain; split <;> rfl
@[simp] theorem abortChain_busy : (abortChain s).busy = s.busy := by unfold abortChain; split <;> rfl
@[simp] theorem abortChain_done : (abortChain s).done = s.done := by unfold abortChain; split <;> rfl
@[simp] theorem abortChain_outValid : (abortChain s).outValid = s.outValid := by unfold abortChain; split <;> rfl
@[simp] theorem abortChain_cmdOvr : (abortChain s).cmdOvr = s.cmdOvr := by unfold abortChain; split <;> rfl
@[simp] theorem abortChain_busViol : (abortChain s).busViol = s.busViol := by unfold abortChain; split <;> rfl
@[simp] theorem abortChain_errcode : (abortChain s).errcode = s.errcode := by unfold abortChain; split <;> rfl
@[simp] theorem abortChain_len : (abortChain s).len = s.len := by unfold abortChain; split <;> rfl
@[simp] theorem abortChain_outlen : (abortChain s).outlen = s.outlen := by unfold abortChain; split <;> rfl
@[simp] theorem abortChain_key : (abortChain s).key = s.key := by unfold abortChain; split <;> rfl
@[simp] theorem abortChain_iv : (abortChain s).iv = s.iv := by unfold abortChain; split <;> rfl
@[simp] theorem abortChain_result : (abortChain s).result = s.result := by unfold abortChain; split <;> rfl
@[simp] theorem abortChain_ibuf : (abortChain s).ibuf = s.ibuf := by unfold abortChain; split <;> rfl
@[simp] theorem abortChain_obuf : (abortChain s).obuf = s.obuf := by unfold abortChain; split <;> rfl
@[simp] theorem abortChain_pending : (abortChain s).pending = s.pending := by unfold abortChain; split <;> rfl
@[simp] theorem abortChain_events : (abortChain s).events = s.events := by unfold abortChain; split <;> rfl
@[simp] theorem abortChain_resp : (abortChain s).resp = s.resp := by unfold abortChain; split <;> rfl

/-- After an abort no chain is open (42_s2v.md R207). -/
@[simp] theorem abortChain_phase : (abortChain s).phase = .idle := by
  unfold abortChain
  split
  · assumption
  · rfl

theorem abortChain_acc : (abortChain s).acc = if s.phase = .idle then s.acc else 0#128 := by
  unfold abortChain
  split <;> rfl

end Sys2Proof.Machine
end

