-- ==== Sys2Proof/Laws/Bus.lean ====
section
/-! SUPPORT. All that a bus transaction can do, said once (20_memory.md R62 to R73). -/

namespace Sys2Proof.Machine

/-! ### The map -/

/-- Alignment as a remainder (20_memory.md R62). -/
theorem aligned_eq (addr : BitVec 14) : aligned addr = decide (addr.toNat % 4 = 0) := by
  have h : addr.extractLsb' 0 2 = 0#2 ↔ addr.toNat % 4 = 0 := by
    rw [BitVec.toNat_eq, BitVec.extractLsb'_toNat, Nat.shiftRight_zero]
    rfl
  rw [aligned, Bool.eq_iff_iff, beq_iff_eq, decide_eq_true_iff, h]

/-- The register map from 0x020 on: four byte-string regions, a gap, and the two windows (20_memory.md R63). -/
theorem locate_of_not_control {a : Nat} (h : 0x020 ≤ a) :
    locate a =
      if a < 0x060 then .key (a - 0x020)
      else if a < 0x070 then .iv (a - 0x060)
      else if a < 0x080 then .result (a - 0x070)
      else if a < 0x090 then .acc (a - 0x080)
      else if a < 0x1000 then .reserved
      else if a < 0x2000 then .ibuf (a - 0x1000)
      else if a < 0x4000 then .obuf (a - 0x2000)
      else .reserved := by
  have hne : ∀ c : Nat, c < 0x020 → ¬ a = c := fun c hc e => absurd (e ▸ hc) (Nat.not_lt.2 h)
  simp only [locate, hne, Nat.not_lt.2 h, Nat.reduceLT, if_false]

/-- CMD has one address (20_memory.md R63). -/
theorem locate_cmd_iff (a : Nat) : locate a = .cmd ↔ a = 0x008 := by
  by_cases h : a < 0x020
  · exact (by decide : ∀ a < 0x020, locate a = .cmd ↔ a = 0x008) a h
  · rw [locate_of_not_control (by omega)]
    repeat' split
    all_goals exact ⟨fun e => by simp at e, fun e => by omega⟩

/-- STATUS has one address (20_memory.md R63). -/
theorem locate_status_iff (a : Nat) : locate a = .status ↔ a = 0x00C := by
  by_cases h : a < 0x020
  · exact (by decide : ∀ a < 0x020, locate a = .status ↔ a = 0x00C) a h
  · rw [locate_of_not_control (by omega)]
    repeat' split
    all_goals exact ⟨fun e => by simp at e, fun e => by omega⟩

/-- The two writes that answer `err` (60_exceptions.md R280). -/
theorem writeFails_iff (addr : BitVec 14) (wstrb : BitVec 4) :
    writeFails addr wstrb = true ↔ addr.toNat % 4 ≠ 0 ∨ (addr.toNat = 0x008 ∧ wstrb ≠ 0xF#4) := by
  simp only [writeFails, aligned_eq, Bool.or_eq_true, Bool.and_eq_true, Bool.not_eq_true', decide_eq_false_iff_not,
    beq_iff_eq, bne_iff_ne, locate_cmd_iff, ne_eq]

/-- The KEY region (20_memory.md R63). -/
theorem locate_key {a : Nat} (lo : 0x020 ≤ a) (hi : a < 0x060) : locate a = .key (a - 0x020) := by
  rw [locate_of_not_control lo, if_pos hi]

/-- The IV region (20_memory.md R63). -/
theorem locate_iv {a : Nat} (lo : 0x060 ≤ a) (hi : a < 0x070) : locate a = .iv (a - 0x060) := by
  simp (disch := omega) only [locate_of_not_control, if_pos, if_neg]

/-- The RESULT region (20_memory.md R63). -/
theorem locate_result {a : Nat} (lo : 0x070 ≤ a) (hi : a < 0x080) : locate a = .result (a - 0x070) := by
  simp (disch := omega) only [locate_of_not_control, if_pos, if_neg]

/-- The ACC region (20_memory.md R63). -/
theorem locate_acc {a : Nat} (lo : 0x080 ≤ a) (hi : a < 0x090) : locate a = .acc (a - 0x080) := by
  simp (disch := omega) only [locate_of_not_control, if_pos, if_neg]

/-- The IBUF window (20_memory.md R63). -/
theorem locate_ibuf {a : Nat} (lo : 0x1000 ≤ a) (hi : a < 0x2000) : locate a = .ibuf (a - 0x1000) := by
  simp (disch := omega) only [locate_of_not_control, if_pos, if_neg]

/-- The OBUF window (20_memory.md R63). -/
theorem locate_obuf {a : Nat} (lo : 0x2000 ≤ a) (hi : a < 0x4000) : locate a = .obuf (a - 0x2000) := by
  simp (disch := omega) only [locate_of_not_control, if_pos, if_neg]

/-! ### Transactions -/

/-- A write that answers `err` changes nothing (60_exceptions.md R280). -/
theorem busWrite_of_fails {addr : BitVec 14} {wstrb : BitVec 4} (h : writeFails addr wstrb = true) (w : Word)
    (s : State) : busWrite addr w wstrb s = s := by rw [busWrite, if_pos h]

/-- All that a write can do. -/
theorem busWrite_cases (addr : BitVec 14) (w : Word) (wstrb : BitVec 4) (s : State) :
    (writeFails addr wstrb = true ∧ busWrite addr w wstrb s = s) ∨
    (writeFails addr wstrb = false ∧ s.busy = true ∧
      busWrite addr w wstrb s = writeBusy (locate addr.toNat) w wstrb s) ∨
    (writeFails addr wstrb = false ∧ s.busy = false ∧
      busWrite addr w wstrb s = writeIdle (locate addr.toNat) w wstrb s) := by
  unfold busWrite
  cases writeFails addr wstrb <;> cases hb : s.busy <;> simp

/-- All that a write can do while a command is in flight (20_memory.md R71). -/
theorem writeBusy_cases (l : Loc) (w : Word) (wstrb : BitVec 4) (s : State) :
    (l = .cmd ∧ writeBusy l w wstrb s = { s with cmdOvr := true }) ∨
    (l = .status ∧ writeBusy l w wstrb s = clearStatus w wstrb s) ∨
    (l ≠ .cmd ∧ l ≠ .status ∧ writeBusy l w wstrb s = { s with busViol := true }) := by
  cases l <;> simp [writeBusy]

/-- The lane-by-lane write keeps whatever each byte's write keeps. -/
theorem writeLanes_keeps {α : Type} {P : α → Prop} {set : α → Nat → Byte → α}
    (hset : ∀ x i b, P x → P (set x i b)) (base : Nat) (w : Word) (wstrb : BitVec 4) {x : α} (hx : P x) :
    P (writeLanes set base w wstrb x) := by
  unfold writeLanes
  simp only [List.foldl_cons, List.foldl_nil]
  have hstep : ∀ (j : Nat) (y : α), P y → P (if wstrb.getLsbD j then set y (base + j) (wordByte w j) else y) := by
    intro j y hy
    split
    · exact hset y _ _ hy
    · exact hy
  exact hstep 3 _ (hstep 2 _ (hstep 1 _ (hstep 0 _ hx)))

/-- What the lane-by-lane write at word `k` does to the byte `a` of a region, said for any region: `get` reads a byte,
`set` writes one byte and no other. -/
theorem get_writeLanes {α : Type} {P : α → Prop} {get : α → Nat → Byte} {set : α → Nat → Byte → α} {a : Nat}
    (hset : ∀ x i b, P x → P (set x i b))
    (hget : ∀ x i b, P x → get (set x i b) a = if a = i then b else get x a)
    (k : Nat) (w : Word) (wstrb : BitVec 4) {x : α} (hx : P x) :
    get (writeLanes set (4 * k) w wstrb x) a =
      if a / 4 = k ∧ wstrb.getLsbD (a % 4) = true then wordByte w (a % 4) else get x a := by
  have hgo : ∀ j y, P y → P (if wstrb.getLsbD j then set y (4 * k + j) (wordByte w j) else y) := by
    intro j y hy
    split
    · exact hset _ _ _ hy
    · exact hy
  have hone : ∀ j y, P y → get (if wstrb.getLsbD j then set y (4 * k + j) (wordByte w j) else y) a =
      if a = 4 * k + j ∧ wstrb.getLsbD j = true then wordByte w j else get y a := by
    intro j y hy
    by_cases h : wstrb.getLsbD j = true
    · rw [if_pos h, hget _ _ _ hy]
      simp only [h, and_true]
    · rw [if_neg h, if_neg fun e => h e.2]
  unfold writeLanes
  simp only [List.foldl_cons, List.foldl_nil]
  rw [hone 3 _ (hgo 2 _ (hgo 1 _ (hgo 0 _ hx))), hone 2 _ (hgo 1 _ (hgo 0 _ hx)), hone 1 _ (hgo 0 _ hx), hone 0 _ hx]
  by_cases hk : a / 4 = k
  · obtain ⟨j, hj, rfl⟩ : ∃ j < 4, a = 4 * k + j := ⟨a % 4, by omega, by omega⟩
    have hm : (4 * k + j) % 4 = j := by omega
    simp only [hk, hm, Nat.add_left_cancel_iff]
    rcases (by omega : j = 0 ∨ j = 1 ∨ j = 2 ∨ j = 3) with rfl | rfl | rfl | rfl <;> simp
  · have hne (j : Nat) (hj : j < 4) : ¬ (a = 4 * k + j ∧ wstrb.getLsbD j = true) := fun e => hk (by omega)
    simp only [hne 0, hne 1, hne 2, hne 3, hk, Nat.reduceLT, false_and, if_false]

/-- Writing the IBUF window keeps the canonical form. -/
theorem wf_ibufSet {m : Memory} (i : Nat) (b : Byte) (h : Memory.wf m = true) : Memory.wf (ibufSet m i b) = true := by
  unfold ibufSet
  split
  · exact Memory.wf_write h i b
  · exact h

/-- Writing the IBUF window stays inside the buffer. -/
theorem below_ibufSet {m : Memory} (i : Nat) (b : Byte) (h : Memory.below bufBytes m = true) :
    Memory.below bufBytes (ibufSet m i b) = true := by
  unfold ibufSet
  split
  · exact Memory.below_write h (by assumption) b
  · exact h

/-- What a byte write into the IBUF window reads as. -/
theorem read_ibufSet {m : Memory} (h : Memory.wf m = true) (i : Nat) (b : Byte) (x : Nat) :
    Memory.read (ibufSet m i b) x = if x = i ∧ i < bufBytes then b else Memory.read m x := by
  unfold ibufSet
  by_cases hi : i < bufBytes
  · rw [if_pos hi, Memory.read_write h]
    simp [hi]
  · rw [if_neg hi, if_neg (by simp [hi])]

end Sys2Proof.Machine
end

