-- ==== Sys2Proof/Laws/Complete.lean ====
section
/-! SUPPORT. Completing a command: every meaning is the one shared completion with the command's own effect, and the
completion is one of two cases (40_control.md R133, R135). -/

namespace Sys2Proof.Machine

/-- The effect each command completes with. -/
def effectOf : Instr → State → State
  | .nop => nopEffect
  | .cmac => cmacEffect Config.aesEnc
  | .s2vInit => s2vInitEffect Config.aesEnc
  | .s2vAd => s2vAdEffect Config.aesEnc
  | .s2vNonce => s2vNonceEffect Config.aesEnc
  | .s2vFinal => s2vFinalEffect Config.aesEnc
  | .ctr => ctrEffect Config.aesEnc
  | .sivEnc => sivEncEffect Config.aesEnc
  | .sivDec => sivDecEffect Config.aesEnc
  | .dbl => dblEffect
  | .xor => xorEffect
  | .pad => padEffect
  | .mask => maskEffect
  | .zeroize => zeroizeEffect

/-- Every meaning answers the shared completion of its effect. -/
theorem exec_eq_complete (i : Instr) (s : State) : exec i s = .next (complete i (effectOf i) s) := by
  cases i <;> rfl

theorem complete_of_noError {i : Instr} {s : State} (h : check i s = .noError) (f : State → State) :
    complete i f s = finish (f s) := by rw [complete, if_pos h]

theorem complete_of_error {i : Instr} {s : State} {e : ErrCode} (h : check i s = e) (he : e ≠ .noError)
    (f : State → State) : complete i f s = finish (takeError e s) := by rw [complete, h, if_neg he]

/-- All that a command can do: its effect and the end of the lifecycle, or its error code and the end of the lifecycle. -/
theorem exec_cases (i : Instr) (s : State) :
    (check i s = .noError ∧ exec i s = .next (finish (effectOf i s))) ∨
      (check i s ≠ .noError ∧ exec i s = .next (finish (takeError (check i s) s))) := by
  by_cases h : check i s = .noError
  · exact .inl ⟨h, by rw [exec_eq_complete, complete_of_noError h]⟩
  · exact .inr ⟨h, by rw [exec_eq_complete, complete_of_error rfl h]⟩

/-! ### The checks, for each command -/

theorem check_noError_iff (i : Instr) (s : State) :
    check i s = .noError ↔
      configFails i s = false ∧ sequenceFails i s = false ∧ lengthFails i s = false ∧ malformedFails i s = false := by
  unfold check
  cases configFails i s <;> cases sequenceFails i s <;> cases lengthFails i s <;> cases malformedFails i s <;> simp

end Sys2Proof.Machine
end

