-- ==== Sys2Proof/Laws/Check.lean ====
section
/-! SUPPORT. The check of each command as one chain of comparisons (60_exceptions.md R271 to R277), and the bounds of
BUF_BYTES (00_scope.md R7). -/

namespace Sys2Proof.Machine

/-- BUF_BYTES is a multiple of 16 from 16 to 4096 (00_scope.md R7). -/
theorem bufBytes_bounds : 16 ≤ bufBytes ∧ bufBytes ≤ 4096 ∧ bufBytes % 16 = 0 := by
  unfold bufBytes
  omega

/-- The two reserved key sizes are those from 2 on (10_state.md R30). -/
theorem configFails_eq (i : Instr) (s : State) : configFails i s = (keyUsing i && decide (2 ≤ s.keysize.toNat)) := by
  have h : ∀ k : BitVec 2, (k == 2#2 || k == 3#2) = decide (2 ≤ k.toNat) := by decide
  rw [configFails, h]

variable (s : State)

theorem check_nop : check .nop s = .noError := rfl
theorem check_dbl : check .dbl s = .noError := rfl
theorem check_mask : check .mask s = .noError := rfl
theorem check_zeroize : check .zeroize s = .noError := rfl

theorem check_xor : check .xor s = if s.len.toNat = 16 then .noError else .length := by
  have h : lengthFails .xor s = (s.len.toNat != 16) := rfl
  simp only [check, configFails_eq, keyUsing, sequenceFails, h, malformedFails]
  by_cases h : s.len.toNat = 16 <;> simp [h]

theorem check_pad : check .pad s = if 15 < s.len.toNat then .length else .noError := by
  have h : lengthFails .pad s = decide (15 < s.len.toNat) := rfl
  simp only [check, configFails_eq, keyUsing, sequenceFails, h, malformedFails]
  simp

theorem check_s2vInit : check .s2vInit s = if 2 ≤ s.keysize.toNat then .config else .noError := by
  simp only [check, configFails_eq, keyUsing, sequenceFails, lengthFails, malformedFails]
  simp

/-- The check of CMAC and CTR. -/
theorem check_cmac_ctr {i : Instr} (hi : i = .cmac ∨ i = .ctr) :
    check i s =
      if 2 ≤ s.keysize.toNat then .config else if bufBytes < s.len.toNat then .length else .noError := by
  have h : lengthFails i s = decide (bufBytes < s.len.toNat) := by rcases hi with rfl | rfl <;> rfl
  rw [check, h, configFails_eq]
  rcases hi with rfl | rfl <;> simp [keyUsing, sequenceFails, malformedFails]

/-- The check of the commands that fold a string. -/
theorem check_fold {i : Instr} (hi : i = .s2vAd ∨ i = .s2vNonce) :
    check i s =
      if 2 ≤ s.keysize.toNat then .config
      else if s.phase ≠ .ad then .sequence
      else if bufBytes < s.len.toNat then .length else .noError := by
  have h : lengthFails i s = decide (bufBytes < s.len.toNat) := by rcases hi with rfl | rfl <;> rfl
  rw [check, h, configFails_eq]
  rcases hi with rfl | rfl <;> simp [keyUsing, sequenceFails, malformedFails]

/-- The check of S2V_FINAL and SIV_ENC. -/
theorem check_finish {i : Instr} (hi : i = .s2vFinal ∨ i = .sivEnc) :
    check i s =
      if 2 ≤ s.keysize.toNat then .config
      else if s.phase = .idle then .sequence
      else if bufBytes < s.len.toNat then .length else .noError := by
  have h : lengthFails i s = decide (bufBytes < s.len.toNat) := by rcases hi with rfl | rfl <;> rfl
  rw [check, h, configFails_eq]
  rcases hi with rfl | rfl <;> simp [keyUsing, sequenceFails, malformedFails]

theorem check_sivDec :
    check .sivDec s =
      if 2 ≤ s.keysize.toNat then .config
      else if s.phase = .idle then .sequence
      else if bufBytes < s.len.toNat then .length
      else if s.len.toNat < 16 then .malformed else .noError := by
  have h : lengthFails .sivDec s = decide (bufBytes < s.len.toNat) := rfl
  have h' : malformedFails .sivDec s = decide (s.len.toNat < 16) := rfl
  rw [check, h, h', configFails_eq]
  simp [keyUsing, sequenceFails]

/-- The check depends on KEYSIZE, PHASE and LEN alone (60_exceptions.md R277). -/
theorem check_congr (i : Instr) {s t : State} (h1 : t.keysize = s.keysize) (h2 : t.phase = s.phase)
    (h3 : t.len = s.len) : check i t = check i s := by
  have hc : configFails i t = configFails i s := by simp only [configFails, h1]
  have hq : sequenceFails i t = sequenceFails i s := by cases i <;> simp [sequenceFails, h2]
  have hl : lengthFails i t = lengthFails i s := by cases i <;> unfold lengthFails inputLen <;> simp only [h3]
  have hm : malformedFails i t = malformedFails i s := by
    cases i <;> unfold malformedFails inputLen <;> simp only [h3]
  simp only [check, hc, hq, hl, hm]

/-- A command that passes its check completes with its effect. -/
theorem exec_of_noError {i : Instr} {s : State} (h : check i s = .noError) :
    exec i s = .next (finish (effectOf i s)) := by rw [exec_eq_complete, complete_of_noError h]

/-- A command that fails its check sets ERRCODE and ends the lifecycle. -/
theorem exec_of_error {i : Instr} {s : State} {e : ErrCode} (h : check i s = e) (he : e ≠ .noError) :
    exec i s = .next { s with errcode := e, busy := false, done := true } := by
  rw [exec_eq_complete, complete_of_error h he]
  rfl

end Sys2Proof.Machine
end

