-- ==== Sys2Proof/Laws/Crypto.lean ====
section
/-! SUPPORT. The lengths of the strings the functions make, and what the operands of a command depend on (41_cmac.md,
42_s2v.md R204, 43_siv.md R232, 40_control.md R134). -/

namespace Sys2Proof.Machine

/-- The string under the final CMAC is the payload's length, or one block (42_s2v.md R204). -/
theorem length_s2vTail (d : Block) (p : List Byte) : (s2vTail d p).length = max p.length 16 := by
  unfold s2vTail
  dsimp only
  split
  · simp only [List.length_append, length_xorBytes, length_slice, length_bytesOfBlock]
    omega
  · rw [length_bytesOfBlock]
    omega

/-- One block of CTR keeps its length. -/
theorem length_ctrBlock (x : List Byte) (b : Block) (i : Nat) :
    (xorBytes (slice x (16 * i) (16 * i + min 16 (x.length - 16 * i)))
      ((bytesOfBlock b).take (min 16 (x.length - 16 * i)))).length = min 16 (x.length - 16 * i) := by
  simp only [length_xorBytes, length_slice, List.length_take, length_bytesOfBlock]
  omega

theorem sum_block_lengths (n len : Nat) : ((List.range n).map fun i => min 16 (len - 16 * i)).sum = min (16 * n) len := by
  induction n with
  | zero => simp
  | succ n ih =>
    rw [List.range_succ, List.map_append, List.sum_append, ih]
    simp only [List.map_cons, List.map_nil, List.sum_cons, List.sum_nil]
    omega

/-- CTR keeps the length (43_siv.md R232). -/
theorem length_ctr (enc : BlockCipher) (k : List Byte) (c : Block) (x : List Byte) : (ctr enc k c x).length = x.length := by
  unfold ctr
  rw [List.length_flatMap, List.map_congr_left fun i _ => length_ctrBlock x _ i, sum_block_lengths]
  omega

theorem length_inputBytes (s : State) : (inputBytes s).length = s.len.toNat := by
  simp [inputBytes, ibufSlice, inputLen]

/-- The key halves depend on KEYSIZE and KEY alone (40_control.md R134). -/
theorem key1_congr {s t : State} (h1 : t.keysize = s.keysize) (h2 : t.key = s.key) : key1 t = key1 s := by
  simp only [key1, keyHalf, h1, h2]

theorem key2_congr {s t : State} (h1 : t.keysize = s.keysize) (h2 : t.key = s.key) : key2 t = key2 s := by
  simp only [key2, keyHalf, h1, h2]

/-- The input depends on LEN and the bytes of IBUF below it alone (30_encoding.md R104). -/
theorem inputBytes_congr {s t : State} (h1 : t.len = s.len)
    (h2 : ∀ a < s.len.toNat, Memory.read t.ibuf a = Memory.read s.ibuf a) : inputBytes t = inputBytes s := by
  simp only [inputBytes, ibufSlice, inputLen, h1]
  exact readBytes_congr fun i hi => h2 _ (by omega)

end Sys2Proof.Machine
end

