-- ==== Sys2Proof/Laws/Decode.lean ====
section
/-! SUPPORT. Decoding, read as arithmetic on the word's value (30_encoding.md R101). -/

namespace Sys2Proof

/-- The ZERO field is clear exactly when the word's value is below 16. -/
theorem zeroField_iff (w : Word) : w.extractLsb' 4 28 = 0#28 ↔ w.toNat < 16 := by
  rw [BitVec.toNat_eq]
  simp only [BitVec.extractLsb'_toNat, BitVec.toNat_ofNat, Nat.shiftRight_eq_div_pow]
  have := w.isLt
  omega

/-- Decoding by the value of the word. -/
theorem decode_eq (w : Word) :
    decode w = if 16 ≤ w.toNat then .error .nonzeroUpperBits else decodeOp w.toNat := by
  unfold decode
  by_cases h : 16 ≤ w.toNat
  · rw [if_pos h, if_pos fun e => absurd ((zeroField_iff w).1 e) (by omega)]
  · rw [if_neg h, if_neg (not_not.2 ((zeroField_iff w).2 (by omega)))]
    congr 1
    simp only [BitVec.extractLsb'_toNat, Nat.shiftRight_zero]
    omega

end Sys2Proof
end

