-- ==== Sys2Proof/Laws/PerInstr.lean ====
section
/-! SUPPORT. The statements made for every command as syntax, one lemma a constructor. -/

namespace Sys2Proof.Laws.OpcodeMap

/-- The word of a command is its opcode, one of the fourteen assigned values, and passes both checks of a legal word
(30_encoding.md R100, R102). -/
def Statement (i : Instr) : Prop :=
  i.wellFormed = true ∧ wordLegal (encode i) = true ∧ (encode i).toNat = (opcode i).toNat ∧ (encode i).toNat < 14

theorem nop : Statement .nop := by unfold Statement; decide
theorem cmac : Statement .cmac := by unfold Statement; decide
theorem s2vInit : Statement .s2vInit := by unfold Statement; decide
theorem s2vAd : Statement .s2vAd := by unfold Statement; decide
theorem s2vNonce : Statement .s2vNonce := by unfold Statement; decide
theorem s2vFinal : Statement .s2vFinal := by unfold Statement; decide
theorem ctr : Statement .ctr := by unfold Statement; decide
theorem sivEnc : Statement .sivEnc := by unfold Statement; decide
theorem sivDec : Statement .sivDec := by unfold Statement; decide
theorem dbl : Statement .dbl := by unfold Statement; decide
theorem xor : Statement .xor := by unfold Statement; decide
theorem pad : Statement .pad := by unfold Statement; decide
theorem mask : Statement .mask := by unfold Statement; decide
theorem zeroize : Statement .zeroize := by unfold Statement; decide

end Sys2Proof.Laws.OpcodeMap
end

