-- ==== Sys2Proof/Laws/Step.lean ====
section
/-! SUPPORT. All that one step can do, said once. -/

namespace Sys2Proof.Machine

/-- The completion step answers one state: the end of the lifecycle on the effect or on the error code of
`checkWord` (40_control.md R133). -/
theorem completion_cases (s : State) :
    (∃ i, decode s.pending = .ok i ∧ check i s = .noError ∧ completion s = .next (finish (effectOf i s))) ∨
      (checkWord s.pending s ≠ .noError ∧ completion s = .next (finish (takeError (checkWord s.pending s) s))) := by
  unfold completion checkWord
  cases hd : decode s.pending with
  | error e => exact .inr ⟨by simp, rfl⟩
  | ok i =>
    rcases exec_cases i s with ⟨hc, he⟩ | ⟨hc, he⟩
    · exact .inl ⟨i, rfl, hc, he⟩
    · exact .inr ⟨hc, he⟩

/-- What a step answers, by the agent whose step it is. -/
theorem step_cases {s t : State} (h : step s = .next t) :
    (s.events = [] ∧ s.busy = true ∧ completion s = .next t) ∨
    (s.events = [] ∧ s.busy = false ∧ t = s) ∨
    (∃ tr rest, s.events = .host tr :: rest ∧ t = transact tr { s with events := rest }) ∨
    (∃ rest, s.events = .engine :: rest ∧ s.busy = true ∧ completion { s with events := rest } = .next t) ∨
    (∃ rest, s.events = .engine :: rest ∧ s.busy = false ∧ t = { s with events := rest }) ∨
    (∃ rest, s.events = .reset :: rest ∧ t = { State.reset with events := rest }) := by
  unfold step engineTurn at h
  rcases hev : s.events with _ | ⟨e, rest⟩
  · rw [hev] at h
    rcases hb : s.busy with _ | _
    · simp only [hb] at h
      exact .inr (.inl ⟨rfl, rfl, by cases h; rfl⟩)
    · simp only [hb] at h
      exact .inl ⟨rfl, rfl, h⟩
  · rw [hev] at h
    cases e with
    | host tr => exact .inr (.inr (.inl ⟨tr, rest, rfl, by cases h; rfl⟩))
    | engine =>
      rcases hb : s.busy with _ | _
      · simp only [hb] at h
        exact .inr (.inr (.inr (.inr (.inl ⟨rest, rfl, rfl, by cases h; rfl⟩))))
      · simp only [hb] at h
        exact .inr (.inr (.inr (.inl ⟨rest, rfl, rfl, h⟩)))
    | reset => exact .inr (.inr (.inr (.inr (.inr ⟨rest, rfl, by cases h; rfl⟩))))

end Sys2Proof.Machine
end

