-- ==== Sys2Proof/Tests/Fips197.lean ====
section
/-! SUPPORT. FIPS-197 AES encryption, the intended instance of `AES_Enc` (00_scope.md R8, from general knowledge): used
by the tests alone, to run the functions of Machine/Crypto.lean against the vectors of 95_test_vectors.md. The model
never imports it. -/

namespace Sys2Proof.Tests

/-- The S-box, sixteen bytes a row, byte 0 of a row least significant. -/
def sboxRow (r : Nat) : Nat :=
  match r with
  | 0 => 0x76abd7fe2b670130c56f6bf27b777c63
  | 1 => 0xc072a49cafa2d4adf04759fa7dc982ca
  | 2 => 0x1531d871f1e5a534ccf73f362693fdb7
  | 3 => 0x75b227ebe28012079a059618c323c704
  | 4 => 0x842fe329b3d63b52a05a6e1b1a2c8309
  | 5 => 0xcf584c4a39becb6a5bb1fc20ed00d153
  | 6 => 0xa89f3c507f02f94585334d43fbaaefd0
  | 7 => 0xd2f3ff1021dab6bcf5389d928f40a351
  | 8 => 0x73195d643d7ea7c41744975fec130ccd
  | 9 => 0xdb0b5ede14b8ee4688902a22dc4f8160
  | 10 => 0x79e4959162acd3c25c2406490a3a32e0
  | 11 => 0x08ae7a65eaf4566ca94ed58d6d37c8e7
  | 12 => 0x8a8bbd4b1f74dde8c6b4a61c2e2578ba
  | 13 => 0x9e1dc186b95735610ef6034866b53e70
  | 14 => 0xdf2855cee9871e9b948ed9691198f8e1
  | _ => 0x16bb54b00f2d99416842e6bf0d89a18c

def sbox (b : Nat) : Nat := (sboxRow (b / 16) >>> (8 * (b % 16))) % 256

def xtime (b : Nat) : Nat := if 2 * b < 256 then 2 * b else (2 * b) ^^^ 0x11B

def xorNats (a b : List Nat) : List Nat := List.zipWith (fun x y => x ^^^ y) a b

/-- ShiftRows on the 16 bytes of a state, column by column. -/
def shiftRows (s : List Nat) : List Nat :=
  [0, 5, 10, 15, 4, 9, 14, 3, 8, 13, 2, 7, 12, 1, 6, 11].map fun i => s.getD i 0

/-- MixColumns. -/
def mixColumns : List Nat → List Nat
  | a :: b :: c :: d :: rest =>
    let t := a ^^^ b ^^^ c ^^^ d
    (a ^^^ t ^^^ xtime (a ^^^ b)) :: (b ^^^ t ^^^ xtime (b ^^^ c)) :: (c ^^^ t ^^^ xtime (c ^^^ d))
      :: (d ^^^ t ^^^ xtime (d ^^^ a)) :: mixColumns rest
  | _ => []

/-- The next word of the key schedule, number `i`, from the words so far, newest first. -/
def nextWord (nk i rcon : Nat) (ws : List (List Nat)) : List Nat :=
  let prev := ws.getD 0 []
  let temp :=
    if i % nk = 0 then
      match (prev.drop 1 ++ prev.take 1).map sbox with
      | x :: xs => (x ^^^ rcon) :: xs
      | [] => []
    else if nk = 8 ∧ i % nk = 4 then prev.map sbox
    else prev
  xorNats (ws.getD (nk - 1) []) temp

def expand (nk : Nat) : Nat → Nat → Nat → List (List Nat) → List (List Nat)
  | 0, _, _, ws => ws
  | n + 1, i, rcon, ws =>
    expand nk n (i + 1) (if i % nk = 0 then xtime rcon else rcon) (nextWord nk i rcon ws :: ws)

def chunk4 : List Nat → List (List Nat)
  | a :: b :: c :: d :: rest => [a, b, c, d] :: chunk4 rest
  | _ => []

/-- The round keys as one byte list. -/
def roundKeys (key : List Nat) : List Nat :=
  let nk := key.length / 4
  (expand nk (4 * (nk + 7) - nk) nk 1 (chunk4 key).reverse).reverse.flatten

/-- The middle rounds and the last one. -/
def rounds : Nat → List Nat → List Nat → List Nat
  | 0, ks, s => xorNats (shiftRows (s.map sbox)) (ks.take 16)
  | n + 1, ks, s => rounds n (ks.drop 16) (xorNats (mixColumns (shiftRows (s.map sbox))) (ks.take 16))

def bytesOfNat (v : Nat) : List Nat := (List.range 16).map fun i => (v >>> (8 * (15 - i))) % 256

def natOfBytes (bs : List Nat) : Nat := bs.foldl (fun a b => a * 256 + b) 0

/-- AES encryption of one block under a 16- or 32-byte key. -/
def fips197 : BlockCipher := fun key x =>
  let k := key.map (fun b => b.toNat)
  let ks := roundKeys k
  BitVec.ofNat 128 (natOfBytes (rounds (k.length / 4 + 5) (ks.drop 16) (xorNats (bytesOfNat x.toNat) (ks.take 16))))

end Sys2Proof.Tests
end

