-- ==== Sys2Proof/Tests/Slice0.lean ====
section
/-! SUPPORT. The model's own tests. Every expected value comes from spec/: the encodings of 30_encoding.md, the rules'
examples, and the vectors of 95_test_vectors.md, named at each test. The vectors that need the cipher are run on the
effect of a command with the FIPS-197 instance in place of the parameter. Last come the witnesses: for every obligation
that has hypotheses, a concrete state that meets them, with a boundary value for each clause. -/

namespace Sys2Proof.Tests

set_option Elab.async false

open Sys2Proof.Machine

/-! ### Helpers -/

/-- `n` bytes written as one hex number, byte 0 first. -/
def hexBytes (n v : Nat) : List Byte := (List.range n).map fun i => BitVec.ofNat 8 (v >>> (8 * (n - 1 - i)))

theorem length_hexBytes (n v : Nat) : (hexBytes n v).length = n := by simp [hexBytes]

/-- The reset state with a KEYSIZE, a PHASE and a LEN. -/
def st (k : BitVec 2) (p : Phase) (n : Word) : State := { State.reset with keysize := k, phase := p, len := n }

/-- `st` with the word `w` in flight. -/
def flying (w : Word) (k : BitVec 2) (p : Phase) (n : Word) : State := issue w (st k p n)

/-- The reset state with KEY written as one 64-byte hex number. -/
def keyed (v : Nat) : State := { State.reset with key := ⟨(hexBytes 64 v).toArray, length_hexBytes 64 v⟩ }

/-- The A.1 key of V-SIV-1 in KEY[0..32). -/
def a1 : State := keyed (0xfffefdfcfbfaf9f8f7f6f5f4f3f2f1f0f0f1f2f3f4f5f6f7f8f9fafbfcfdfeff <<< 256)

/-- The A.1 state after S2V_INIT and S2V_AD (V-S2V-1, step 2). -/
def a1Chain : State := { a1 with phase := .ad, acc := 0xedf09de876c642ee4d78bce4ceedfc4f#128 }

/-- The state a step answers; the reset state where there is none. -/
def after (o : Host.Outcome State Fault Refusal) : State := (nextOf o).getD State.reset

/-- STATUS after the command word `w` has run from `s`. -/
def statusOf (w : Word) (s : State) : Word := statusWord (after (completion (issue w s)))

/-! ### Well-formed words (30_encoding.md R100, R105) -/

/-- A bit of 31:4 set is refused by the ZERO check, at both ends of the field. -/
theorem test_zero_field_refused :
    zeroFieldClear 0x00000010#32 = false ∧ zeroFieldClear 0x80000001#32 = false ∧ wordLegal 0x00000010#32 = false ∧
      zeroFieldClear 0x0000000F#32 = true := by decide

/-- The two reserved OP values are refused by the OP check. -/
theorem test_reserved_op_refused :
    opAssigned 0xE#32 = false ∧ opAssigned 0xF#32 = false ∧ wordLegal 0xE#32 = false ∧ wordLegal 0xD#32 = true := by
  decide

/-- The words the two checks refuse are those that do not decode, on the words around each boundary (R105). -/
theorem test_legal_words :
    wordLegal 0x0#32 = true ∧ decode 0x0#32 = .ok .nop ∧ wordLegal 0x1D#32 = false ∧
      decode 0x1D#32 = .error .nonzeroUpperBits ∧ wordLegal 0xF#32 = false ∧ decode 0xF#32 = .error .reservedOpcode := by
  decide

/-- Every command is well formed. -/
theorem test_commands_well_formed : ∀ i ∈ [Instr.nop, .cmac, .sivDec, .zeroize], i.wellFormed = true := by decide

/-! ### Decoding, each word written out bit by bit (30_encoding.md R102) -/

theorem test_decode_control :
    decode 0b00000000000000000000000000000000#32 = .ok .nop ∧
      decode 0b00000000000000000000000000001101#32 = .ok .zeroize := by decide

theorem test_decode_cmac_family :
    decode 0b00000000000000000000000000000001#32 = .ok .cmac ∧
      decode 0b00000000000000000000000000001001#32 = .ok .dbl ∧
      decode 0b00000000000000000000000000001010#32 = .ok .xor ∧
      decode 0b00000000000000000000000000001011#32 = .ok .pad := by decide

theorem test_decode_s2v_family :
    decode 0b00000000000000000000000000000010#32 = .ok .s2vInit ∧
      decode 0b00000000000000000000000000000011#32 = .ok .s2vAd ∧
      decode 0b00000000000000000000000000000100#32 = .ok .s2vNonce ∧
      decode 0b00000000000000000000000000000101#32 = .ok .s2vFinal := by decide

theorem test_decode_siv_family :
    decode 0b00000000000000000000000000000110#32 = .ok .ctr ∧
      decode 0b00000000000000000000000000000111#32 = .ok .sivEnc ∧
      decode 0b00000000000000000000000000001000#32 = .ok .sivDec ∧
      decode 0b00000000000000000000000000001100#32 = .ok .mask := by decide

/-- The illegal words of V-ERR, each rejected by name. -/
theorem test_decode_illegal :
    decode 0x00000010#32 = .error .nonzeroUpperBits ∧ decode 0x80000001#32 = .error .nonzeroUpperBits ∧
      decode 0x0000000E#32 = .error .reservedOpcode ∧ decode 0x0000000F#32 = .error .reservedOpcode := by decide

/-- The host's reading of the table: bits above `nbits` are zero, a reserved value is no instruction. -/
theorem test_decodeTableWord :
    decodeTableWord 32 0x8 = some .sivDec ∧ decodeTableWord 8 0x108 = some .sivDec ∧ decodeTableWord 32 0x10 = none ∧
      decodeTableWord 32 0xE = none := by decide

/-- A placed word is the next command that runs: DBL from reset ends in one step with DONE (R133). -/
theorem test_withFetchWord :
    (after (step (State.reset.withFetchWord 32 0x9))).done = true ∧
      (after (step (State.reset.withFetchWord 32 0x9))).busy = false := by decide

/-! ### The commands without the cipher -/

/-- V-CTL-1: NOP keeps an open chain: STATUS = 0x00001002. -/
theorem test_nop_keeps_chain : statusOf 0x0 (st 0#2 .ad 0#32) = 0x00001002#32 := by decide

/-- V-CTL-2: ZEROIZE keeps CTRL and the sticky bits: CTRL = 0x00000003, STATUS = 0x00000012, LEN = 0. -/
theorem test_zeroize :
    let s := after (completion (issue 0xD#32 { st 1#2 .ad 24#32 with irqEn := true, busViol := true }))
    ctrlWord s = 0x3#32 ∧ statusWord s = 0x12#32 ∧ s.len = 0#32 ∧ irq s = true := by decide

/-- V-DBL-3 and V-DBL-4: the carry, and carry with shift. -/
theorem test_dbl_carry :
    (dblEffect { State.reset with iv := 0x80000000000000000000000000000000#128 }).result = 0x87#128 ∧
      dbl 0xffffffffffffffffffffffffffffffff#128 = 0xffffffffffffffffffffffffffffff79#128 := by decide

/-- V-DBL-8: a subkey step with the top bit set. -/
theorem test_dbl_subkey :
    dbl 0xfbeed618357133667c85e08f7236a8de#128 = 0xf7ddac306ae266ccf90bc11ee46d513b#128 := by decide

/-- V-XOR-1. -/
theorem test_xor :
    (xorEffect (presentInput (hexBytes 16 0xffeeddccbbaa99887766554433221100)
      { State.reset with iv := 0x00112233445566778899aabbccddeeff#128 })).result =
        0xffffffffffffffffffffffffffffffff#128 := by decide +kernel

/-- V-XOR-4, V-XOR-5 and the KEYSIZE = 3 row of V-ERR: LENGTH, STATUS = 0x00000402. -/
theorem test_xor_length :
    statusOf 0xA (st 0#2 .idle 15#32) = 0x402#32 ∧ statusOf 0xA (st 0#2 .idle 17#32) = 0x402#32 ∧
      statusOf 0xA (st 3#2 .idle 15#32) = 0x402#32 ∧ statusOf 0xA (st 0#2 .idle 16#32) = 0x2#32 := by decide

/-- V-PAD-1, V-PAD-3 and V-PAD-4. -/
theorem test_pad :
    pad [] = 0x80000000000000000000000000000000#128 ∧
      pad (hexBytes 14 0x112233445566778899aabbccddee) = 0x112233445566778899aabbccddee8000#128 ∧
      pad (hexBytes 15 0x000102030405060708090a0b0c0d0e) = 0x000102030405060708090a0b0c0d0e80#128 := by decide +kernel

/-- V-PAD-5 and V-ERR: 16 is too long, 15 is not. -/
theorem test_pad_length :
    statusOf 0xB (st 0#2 .idle 16#32) = 0x402#32 ∧ statusOf 0xB (st 0#2 .idle 15#32) = 0x2#32 := by decide +kernel

/-- V-MASK-1 and V-MASK-2. -/
theorem test_mask :
    (maskEffect { State.reset with iv := 0xffffffffffffffffffffffffffffffff#128 }).result =
        0xffffffffffffffff7fffffff7fffffff#128 ∧
      mask 0x85632d07c6e8f37f950acd320a2ecc93#128 = 0x85632d07c6e8f37f150acd320a2ecc93#128 := by decide

/-! ### The commands with the cipher, on the FIPS-197 instance -/

/-- V-CMAC-2, n = 40: the padded last block. -/
theorem test_cmac_partial :
    (cmacEffect fips197 (presentInput
      (hexBytes 40 0x6bc1bee22e409f96e93d7e117393172aae2d8a571e03ac9c9eb76fac45af8e5130c81c46a35ce411)
      (keyed (0x2b7e151628aed2a6abf7158809cf4f3c <<< 384)))).result = 0xdfa66747de9ae63030ca32611497c827#128 := by
  decide +kernel

/-- V-CMAC-5, n = 16: AES-256 and a complete last block, Key1 of 32 bytes. -/
theorem test_cmac_256 :
    (cmacEffect fips197 (presentInput (hexBytes 16 0x6bc1bee22e409f96e93d7e117393172a)
      { keyed (0x603deb1015ca71be2b73aef0857d77811f352c073b6108d72d9810a30914dff4 <<< 256) with
        keysize := 1#2 })).result = 0x28a7023f452e8f82bd4bf28d8c37c35c#128 := by decide +kernel

/-- V-S2V-1, step 1. -/
theorem test_s2vInit :
    (s2vInitEffect fips197 a1).acc = 0x0e04dfafc1efbf040140582859bf073a#128 ∧
      (s2vInitEffect fips197 a1).phase = .ad := by decide +kernel

/-- V-S2V-1, step 2. -/
theorem test_s2vAd :
    (s2vAdEffect fips197 (presentInput (hexBytes 24 0x101112131415161718191a1b1c1d1e1f2021222324252627)
      { a1 with phase := .ad, acc := 0x0e04dfafc1efbf040140582859bf073a#128 })).acc =
        0xedf09de876c642ee4d78bce4ceedfc4f#128 := by decide +kernel

/-- V-S2V-6: the empty string is folded by S2V_AD and is no nonce for S2V_NONCE. -/
theorem test_empty_string :
    (s2vAdEffect fips197 a1Chain).acc = 0x73e1868a563fd00bd2756c809bfcd633#128 ∧
      (s2vNonceEffect fips197 a1Chain).acc = 0xedf09de876c642ee4d78bce4ceedfc4f#128 ∧
      (s2vNonceEffect fips197 a1Chain).phase = .ad := by decide +kernel

/-- V-S2V-2, step 4. -/
theorem test_s2vNonce :
    let s := s2vNonceEffect fips197 (presentInput (hexBytes 16 0x09f911029d74e35bd84156c5635688c0)
      { keyed (0x7f7e7d7c7b7a79787776757473727170404142434445464748494a4b4c4d4e4f <<< 256) with
        phase := .ad, acc := 0x826aa75b5e568eed3125bfb266c61d4e#128 })
    s.acc = 0x16592c17729a5a725567636168b48376#128 ∧ s.phase = .nonceDone := by decide +kernel

/-- V-S2V-1, step 3: the pad branch. -/
theorem test_s2vFinal_pad :
    let s := s2vFinalEffect fips197 (presentInput (hexBytes 14 0x112233445566778899aabbccddee) a1Chain)
    s.result = 0x85632d07c6e8f37f950acd320a2ecc93#128 ∧ s.acc = 0#128 ∧ s.phase = .idle := by decide +kernel

/-- V-S2V-2, step 5: the xorend branch on 47 bytes. -/
theorem test_s2vFinal_xorend :
    s2vFinal fips197 (hexBytes 16 0x7f7e7d7c7b7a79787776757473727170) 0x16592c17729a5a725567636168b48376#128
      (hexBytes 47 0x7468697320697320736f6d6520706c61696e7465787420746f20656e6372797074207573696e67205349562d414553) =
        0x7bdb6e3b432667eb06f4d14bff2fbd0f#128 := by decide +kernel

/-- V-CTR-1: the key of CTR is KEY[16..32), the IV is used unmasked. -/
theorem test_ctr :
    let s := ctrEffect fips197 (presentInput
      (hexBytes 32 0x000102030405060708090a0b0c0d0e0f101112131415161718191a1b1c1d1e1f)
      { keyed (0x7e24067817fae0d743d6ce1f32539163 <<< 256) with iv := 0x006cb6dbc0543b59da48d90b00000001#128 })
    releasedOutput s = hexBytes 32 0x5104a106168a72d9790d41ee8edad388eb2e1efc46da57c8fce630df9141be28 ∧
      s.outlen = 32#32 ∧ s.outValid = true := by decide +kernel

/-- V-CTR-3: the counter carries across bit 32 of the block, and wraps at 128 bits. -/
theorem test_ctr_carry :
    ctr fips197 (hexBytes 16 0x7e24067817fae0d743d6ce1f32539163) 0xffffffff#128 (List.replicate 32 0#8) =
        hexBytes 32 0xa271d65ab9f718e8391cc427dc55d67b82b1a96adc3a31f404de03ceb1c52f5b ∧
      counterBlock 0xffffffffffffffffffffffffffffffff#128 1 = 0#128 := by decide +kernel

/-- V-SIV-1: SIV first, then the ciphertext. -/
theorem test_sivEnc :
    let s := sivEncEffect fips197 (presentInput (hexBytes 14 0x112233445566778899aabbccddee) a1Chain)
    releasedOutput s = hexBytes 30 0x85632d07c6e8f37f950acd320a2ecc9340c02b9690c4dc04daef7f6afe5c ∧
      s.outlen = 30#32 ∧ s.result = 0x85632d07c6e8f37f950acd320a2ecc93#128 ∧ s.phase = .idle := by decide +kernel

/-- V-SIV-5. -/
theorem test_sivDec :
    let s := sivDecEffect fips197 (presentInput
      (hexBytes 30 0x85632d07c6e8f37f950acd320a2ecc9340c02b9690c4dc04daef7f6afe5c) a1Chain)
    releasedOutput s = hexBytes 14 0x112233445566778899aabbccddee ∧ s.errcode = .noError ∧
      s.result = 0x85632d07c6e8f37f950acd320a2ecc93#128 ∧ s.acc = 0#128 := by decide +kernel

/-- V-SIV-7: bit 63 of the received SIV flipped, which the mask hides from the counter, gives AUTH and no output. -/
theorem test_sivDec_auth :
    let s := sivDecEffect fips197 (presentInput
      (hexBytes 30 0x85632d07c6e8f37f150acd320a2ecc9340c02b9690c4dc04daef7f6afe5c) a1Chain)
    s.errcode = .auth ∧ s.outValid = false ∧ s.obuf = [] ∧ s.phase = .idle := by decide +kernel

/-! ### The order of the checks (V-ERR) -/

/-- ILLEGAL before CONFIG, CONFIG before SEQUENCE, SEQUENCE before the lengths. -/
theorem test_check_order :
    statusOf 0x10 (st 2#2 .idle 5000#32) = 0x102#32 ∧ statusOf 0x8 (st 3#2 .idle 5#32) = 0x202#32 ∧
      statusOf 0x8 (st 0#2 .idle 5#32) = 0x302#32 ∧ statusOf 0x2 (st 3#2 .nonceDone 9999#32) = 0x2202#32 ∧
      statusOf 0x3 (st 0#2 .nonceDone 0#32) = 0x2302#32 := by decide

/-- A length past every buffer size is LENGTH before MALFORMED can be; 15 bytes are MALFORMED (V-SIV-6). -/
theorem test_sivDec_lengths : statusOf 0x8 (st 0#2 .ad 5000#32) = 0x1402#32 ∧ check .sivDec (st 0#2 .ad 15#32) = .malformed := by
  have hb := bufBytes_bounds
  have h1 : check .sivDec (st 0#2 .ad 5000#32) = .length := by
    rw [check_sivDec]
    simp [st]
    omega
  have h2 : check .sivDec (issue 0x8#32 (st 0#2 .ad 5000#32)) = .length := h1
  refine ⟨?_, ?_⟩
  · have he : completion (issue 0x8#32 (st 0#2 .ad 5000#32)) = exec .sivDec (issue 0x8#32 (st 0#2 .ad 5000#32)) := rfl
    show statusWord (after (completion (issue 0x8#32 (st 0#2 .ad 5000#32)))) = _
    rw [he, exec_of_error h2 (by decide)]
    rfl
  · rw [check_sivDec]
    simp [st]
    omega

/-! ### The bus (V-CTL-3, V-CTL-4) -/

/-- Rows 5 to 7: little-endian lanes, one strobed lane. -/
theorem test_bus_lanes :
    (busRead 0x060#14 (busWrite 0x060#14 0xAABBCCDD#32 0b0100#4 (busWrite 0x060#14 0x44332211#32 0xF#4 State.reset))).rdata =
      0x44BB2211#32 := by decide

/-- Rows 8 and 9: LEN merges lane 0 alone. -/
theorem test_bus_len_merge :
    (busRead 0x010#14 (busWrite 0x010#14 0x12345678#32 0b0001#4 State.reset)).rdata = 0x00000078#32 := by decide

/-- Rows 12 and 13, and 20_memory.md R64's example: KEY takes the lanes in order and reads zero. -/
theorem test_bus_key :
    let s := busWrite 0x020#14 0x16157e2b#32 0xF#4 State.reset
    s.key.toList.take 4 = [0x2b#8, 0x7e#8, 0x15#8, 0x16#8] ∧ (busRead 0x020#14 s).rdata = 0#32 := by decide

/-- Rows 16 and 17: misaligned accesses answer `err` and write nothing. -/
theorem test_bus_misaligned :
    busRead 0x062#14 State.reset = { rdata := 0#32, err := true } ∧
      busWrite 0x061#14 1#32 0xF#4 State.reset = State.reset := by decide

/-- Rows 18 and 19: a reserved KEYSIZE is stored, the bits above read zero. -/
theorem test_bus_ctrl :
    (busRead 0x004#14 (busWrite 0x004#14 0xFFFFFFFF#32 0xF#4 State.reset)).rdata = 0x7#32 := by decide

/-- Row 24: IBUF reads back (the first 16 bytes exist for every BUF_BYTES). -/
theorem test_bus_ibuf :
    (busRead 0x1000#14 (busWrite 0x1000#14 0xDDCCBBAA#32 0xF#4 State.reset)).rdata = 0xDDCCBBAA#32 := by decide

/-- Rows 27 to 31: STATUS while DBL is in flight, RESULT hidden, a W1C write of DONE. -/
theorem test_bus_busy :
    let s := busWrite 0x008#14 0x9#32 0xF#4 State.reset
    (busRead 0x00C#14 s).rdata = 0x1#32 ∧ (busRead 0x070#14 s).rdata = 0#32 ∧ (busRead 0x000#14 s).rdata = 0x53495601#32 ∧
      statusWord (busWrite 0x00C#14 0x2#32 0xF#4 s) = 0x1#32 := by decide

/-- Rows 32 to 34: the completion step, W1C of DONE, and RESULT through the lanes. -/
theorem test_bus_result :
    let s := after (completion (issue 0x9#32 { State.reset with iv := 0x1122bb44000000000000000000000000#128 }))
    statusWord s = 0x2#32 ∧ statusWord (busWrite 0x00C#14 0x2#32 0xF#4 s) = 0#32 ∧
      (busRead 0x070#14 s).rdata = 0x88764522#32 := by decide

/-- V-CTL-4 and program P5: a partial strobe issues nothing; a CMD write and another write while busy set their bits. -/
theorem test_bus_violations :
    busWrite 0x008#14 0x1#32 0b0011#4 State.reset = State.reset ∧
      statusWord (busWrite 0x010#14 0#32 0#4 (busWrite 0x008#14 0x9#32 0xF#4 (issue 0x9#32 State.reset))) = 0x19#32 := by
  decide

/-- V-S2V-7: a KEY write of the same byte value aborts the chain, one with no strobe does not. -/
theorem test_chain_abort :
    (busWrite 0x020#14 0#32 0b0001#4 (st 0#2 .ad 0#32)).phase = .idle ∧
      (busWrite 0x020#14 0#32 0#4 (st 0#2 .ad 0#32)).phase = .ad := by decide

/-- 20_memory.md R82's example: RESULT[0] sits in lane 0 of the word at 0x070. -/
theorem test_block_byte_order :
    (busRead 0x070#14 { State.reset with result := 0x85632d07c6e8f37f950acd320a2ecc93#128 }).rdata = 0x072d6385#32 := by
  decide

/-- Program P1's packing: `ldkey` of the RFC 4493 key writes 0x16157E2B to 0x020 first (30_encoding.md R109). -/
theorem test_host_ldkey :
    (hostLdkey (hexBytes 16 0x2b7e151628aed2a6abf7158809cf4f3c)).head? = some (hostWr 0x020 0x16157E2B#32) ∧
      (hostLdkey (hexBytes 16 0x2b7e151628aed2a6abf7158809cf4f3c)).length = 4 := by decide

/-- RESET with a command in flight: STATUS = 0 (70_reset_and_hazards.md R310). -/
theorem test_reset_in_flight :
    after (step { flying 0x1#32 1#2 .ad 16#32 with events := [.reset] }) = State.reset := by decide

/-! ### Witnesses: the hypotheses of the obligations are met -/

/-- LEN at the capacity, and one past it, for whatever BUF_BYTES is. -/
theorem len_at_capacity :
    (BitVec.ofNat 32 bufBytes).toNat = bufBytes ∧ (BitVec.ofNat 32 (bufBytes + 1)).toNat = bufBytes + 1 := by
  have := bufBytes_bounds
  simp only [BitVec.toNat_ofNat]
  omega

theorem witness_IllegalWordsEndWithIllegal :
    (∃ s : State, 16 ≤ s.pending.toNat) ∧ (∃ s : State, s.pending.toNat = 0xE) ∧ (∃ s : State, s.pending.toNat = 0xF) ∧
      ∃ s : State, s.pending.toNat < 0xE :=
  ⟨⟨flying 0x10#32 2#2 .idle 5000#32, by decide⟩, ⟨flying 0xE#32 0#2 .idle 0#32, by decide⟩,
    ⟨flying 0xF#32 0#2 .idle 0#32, by decide⟩, ⟨flying 0xD#32 0#2 .idle 0#32, by decide⟩⟩

theorem witness_StepRunsTheDecodedCommand :
    (∃ (s : State) (i : Instr), s.busy = true ∧ decode s.pending = .ok i ∧ s.events = []) ∧
      ∃ (s : State) (i : Instr) (rest : List Event), s.busy = true ∧ decode s.pending = .ok i ∧
        s.events = .engine :: rest :=
  ⟨⟨flying 0x9#32 0#2 .idle 0#32, .dbl, by decide, by decide, by decide⟩,
    ⟨{ flying 0xD#32 3#2 .ad 0#32 with events := [.engine, .reset] }, .zeroize, [.reset], by decide, by decide, by decide⟩⟩

theorem witness_CommandRunIsTwoSteps :
    ∃ (s : State) (i : Instr) (rest : List Event), s.busy = false ∧ s.events = hostCmd i :: .engine :: rest :=
  ⟨{ st 0#2 .ad 16#32 with events := [hostCmd .sivEnc, .engine] }, .sivEnc, [], by decide, by decide⟩

theorem witness_CompletionStep :
    (∃ (s : State) (rest : List Event), s.busy = true ∧ s.events = .engine :: rest ∧
      checkWord s.pending s ≠ .noError) ∧
      ∃ (s : State) (rest : List Event), s.busy = true ∧ s.events = .engine :: rest ∧
        checkWord s.pending s = .noError :=
  ⟨⟨{ flying 0x5#32 0#2 .idle 0#32 with events := [.engine] }, [], by decide, by decide, by decide⟩,
    ⟨{ flying 0x2#32 1#2 .nonceDone 0#32 with events := [.engine] }, [], by decide, by decide, by decide⟩⟩

/-- An empty schedule; a RESET that comes after the ENGINE's turn; host transactions and neither. -/
theorem witness_EveryIssuedCommandCompletes :
    (∃ s : State, s.busy = true ∧ (∀ before after, s.events = before ++ .reset :: after → Event.engine ∈ before) ∧
      s.events = []) ∧
      (∃ s : State, s.busy = true ∧ (∀ before after, s.events = before ++ .reset :: after → Event.engine ∈ before) ∧
        Event.reset ∈ s.events) ∧
      ∃ s : State, s.busy = true ∧ (∀ before after, s.events = before ++ .reset :: after → Event.engine ∈ before) ∧
        s.events.length = 2 := by
  have noReset (es : List Event) (hes : Event.reset ∉ es) (before after : List Event)
      (h : es = before ++ .reset :: after) : Event.engine ∈ before := absurd (h ▸ by simp) hes
  refine ⟨⟨flying 0x9#32 0#2 .idle 0#32, by decide, noReset _ (by decide), by decide⟩,
    ⟨{ flying 0x9#32 0#2 .idle 0#32 with events := [.engine, .reset] }, by decide, ?_, by decide⟩,
    ⟨{ flying 0x9#32 0#2 .idle 0#32 with events := [hostRd 0x00C, hostWr 0x010 0#32] }, by decide,
      noReset _ (by decide), by decide⟩⟩
  intro before after h
  rcases before with _ | ⟨e, before⟩
  · simp at h
  · rw [(List.cons.inj h).1]
    exact List.mem_cons_self

theorem witness_NothingStopsAndRestHolds :
    (∃ (s : State) (rest : List Event), s.busy = false ∧ s.events = .engine :: rest) ∧
      ∃ s : State, s.busy = false ∧ s.events = [] :=
  ⟨⟨{ State.reset with events := [.engine] }, [], by decide, by decide⟩, ⟨State.reset, by decide, by decide⟩⟩

theorem witness_CmdWriteIssues :
    ∃ (s : State) (w : Word) (rest : List Event), s.busy = false ∧
      s.events = .host { kind := .write, addr := 0x008#14, wdata := w, wstrb := 0xF#4 } :: rest :=
  ⟨{ st 0#2 .ad 16#32 with events := [hostWr 0x008 0xFFFFFFFF#32] }, 0xFFFFFFFF#32, [], by decide, by decide⟩

theorem witness_NopCompletes :
    (∃ s : State, s.cmdOvr = false ∧ s.busViol = false ∧ s.phase = .ad) ∧
      ∃ s : State, s.cmdOvr = false ∧ s.busViol = false ∧ s.phase = .idle :=
  ⟨⟨st 0#2 .ad 0#32, by decide, by decide, by decide⟩, ⟨State.reset, by decide, by decide, by decide⟩⟩

/-- For CMAC and CTR: LEN = 0, LEN at the capacity, the last supported and the first reserved KEYSIZE, LEN one past
the capacity. -/
theorem witness_CmacCompletes_CtrCompletes :
    (∃ s : State, s.keysize.toNat ≤ 1 ∧ s.len.toNat ≤ bufBytes ∧ s.len.toNat = 0) ∧
      (∃ s : State, s.keysize.toNat ≤ 1 ∧ s.len.toNat ≤ bufBytes ∧ s.keysize = 1#2 ∧ s.len.toNat = bufBytes) ∧
      (∃ s : State, 2 ≤ s.keysize.toNat) ∧ ∃ s : State, s.keysize.toNat ≤ 1 ∧ bufBytes < s.len.toNat := by
  obtain ⟨h1, h2⟩ := len_at_capacity
  refine ⟨⟨State.reset, by decide, Nat.zero_le _, by decide⟩, ⟨st 1#2 .idle (BitVec.ofNat 32 bufBytes), by decide, ?_, rfl, h1⟩,
    ⟨st 2#2 .idle 0#32, by decide⟩, ⟨st 0#2 .idle (BitVec.ofNat 32 (bufBytes + 1)), by decide, ?_⟩⟩
  · exact Nat.le_of_eq h1
  · exact Nat.lt_of_lt_of_eq (Nat.lt_succ_self bufBytes) h2.symm

theorem witness_DblAndMaskComplete :
    (∃ s : State, s.iv = 0x80000000000000000000000000000000#128) ∧
      (∃ s : State, s.iv = 0x0e04dfafc1efbf040140582859bf073a#128) ∧
      (∃ s : State, s.iv = 0xffffffffffffffffffffffffffffffff#128) ∧
      (∃ s : State, s.iv = 0x7bdb6e3b432667eb06f4d14bff2fbd0f#128) ∧
      ∃ s : State, blockByte s.iv 8 < 0x80#8 ∧ blockByte s.iv 12 < 0x80#8 ∧ blockByte s.iv 8 = 0x7F#8 :=
  have holds (v : Block) : ∃ s : State, s.iv = v := ⟨{ State.reset with iv := v }, rfl⟩
  ⟨holds _, holds _, holds _, holds _,
    ⟨{ State.reset with iv := 0xffffffffffffffff7fffffff7fffffff#128 }, by decide, by decide, by decide⟩⟩

theorem witness_XorCompletes :
    (∃ s : State, s.len = 16#32 ∧ ∀ i < 16, blockByte s.iv i = Memory.read s.ibuf i) ∧
      (∃ s : State, s.len ≠ 16#32 ∧ s.len = 15#32) ∧ ∃ s : State, s.len ≠ 16#32 ∧ s.len = 17#32 :=
  ⟨⟨{ st 3#2 .idle 16#32 with iv := 0x01000000000000000000000000000000#128, ibuf := [(0, 1#8)] }, by decide, by decide⟩,
    ⟨st 0#2 .idle 15#32, by decide, by decide⟩, ⟨st 0#2 .idle 17#32, by decide, by decide⟩⟩

theorem witness_PadCompletes :
    (∃ s : State, s.len.toNat ≤ 15 ∧ s.len.toNat = 15) ∧ (∃ s : State, s.len.toNat ≤ 15 ∧ s.len.toNat = 0) ∧
      ∃ s : State, 15 < s.len.toNat ∧ s.len.toNat = 16 :=
  ⟨⟨st 3#2 .idle 15#32, by decide, by decide⟩, ⟨st 0#2 .idle 0#32, by decide, by decide⟩,
    ⟨st 0#2 .idle 16#32, by decide, by decide⟩⟩

theorem witness_S2vInitCompletes :
    (∃ s : State, s.keysize.toNat ≤ 1 ∧ s.phase = .nonceDone) ∧ ∃ s : State, 2 ≤ s.keysize.toNat :=
  ⟨⟨st 1#2 .nonceDone 9999#32, by decide, by decide⟩, ⟨st 3#2 .nonceDone 9999#32, by decide⟩⟩

/-- For S2V_AD and S2V_NONCE: one byte, the capacity, the empty string, a reserved KEYSIZE, both wrong phases, one past
the capacity. -/
theorem witness_S2vAdCompletes_S2vNonceCompletes :
    (∃ s : State, s.keysize.toNat ≤ 1 ∧ s.phase = .ad ∧ 0 < s.len.toNat ∧ s.len.toNat ≤ bufBytes ∧ s.len = 1#32) ∧
      (∃ s : State, s.keysize.toNat ≤ 1 ∧ s.phase = .ad ∧ 0 < s.len.toNat ∧ s.len.toNat ≤ bufBytes ∧
        s.len.toNat = bufBytes) ∧
      (∃ s : State, s.keysize.toNat ≤ 1 ∧ s.phase = .ad ∧ s.len = 0#32) ∧ (∃ s : State, 2 ≤ s.keysize.toNat) ∧
      (∃ s : State, s.keysize.toNat ≤ 1 ∧ s.phase ≠ .ad ∧ s.phase = .idle) ∧
      (∃ s : State, s.keysize.toNat ≤ 1 ∧ s.phase ≠ .ad ∧ s.phase = .nonceDone) ∧
      ∃ s : State, s.keysize.toNat ≤ 1 ∧ s.phase = .ad ∧ bufBytes < s.len.toNat := by
  obtain ⟨h1, h2⟩ := len_at_capacity
  have hb := bufBytes_bounds
  refine ⟨⟨st 0#2 .ad 1#32, by decide, rfl, by decide, ?_, rfl⟩,
    ⟨st 0#2 .ad (BitVec.ofNat 32 bufBytes), by decide, rfl, ?_, Nat.le_of_eq h1, h1⟩,
    ⟨st 0#2 .ad 0#32, by decide, rfl, rfl⟩, ⟨st 2#2 .ad 0#32, by decide⟩,
    ⟨st 0#2 .idle 0#32, by decide, by decide, rfl⟩, ⟨st 1#2 .nonceDone 16#32, by decide, by decide, rfl⟩,
    ⟨st 0#2 .ad (BitVec.ofNat 32 (bufBytes + 1)), by decide, rfl, ?_⟩⟩
  · exact Nat.le_trans (by decide) hb.1
  · exact Nat.lt_of_lt_of_eq (Nat.lt_of_lt_of_le (by decide) hb.1) h1.symm
  · exact Nat.lt_of_lt_of_eq (Nat.lt_succ_self bufBytes) h2.symm

/-- For S2V_FINAL and SIV_ENC: both open phases, an empty and a full payload, and each error. -/
theorem witness_S2vFinalCompletes_SivEncCompletes :
    (∃ s : State, s.keysize.toNat ≤ 1 ∧ s.phase ≠ .idle ∧ s.len.toNat ≤ bufBytes ∧ s.phase = .ad ∧ s.len = 0#32) ∧
      (∃ s : State, s.keysize.toNat ≤ 1 ∧ s.phase ≠ .idle ∧ s.len.toNat ≤ bufBytes ∧ s.phase = .nonceDone ∧
        s.len.toNat = bufBytes) ∧
      (∃ s : State, 2 ≤ s.keysize.toNat) ∧ (∃ s : State, s.keysize.toNat ≤ 1 ∧ s.phase = .idle) ∧
      ∃ s : State, s.keysize.toNat ≤ 1 ∧ s.phase ≠ .idle ∧ bufBytes < s.len.toNat := by
  obtain ⟨h1, h2⟩ := len_at_capacity
  refine ⟨⟨st 0#2 .ad 0#32, by decide, by decide, Nat.zero_le _, rfl, rfl⟩,
    ⟨st 1#2 .nonceDone (BitVec.ofNat 32 bufBytes), by decide, by simp [st], Nat.le_of_eq h1, rfl, h1⟩,
    ⟨st 2#2 .ad 0#32, by decide⟩, ⟨st 0#2 .idle 0#32, by decide, rfl⟩,
    ⟨st 0#2 .nonceDone (BitVec.ofNat 32 (bufBytes + 1)), by decide, by simp [st], ?_⟩⟩
  exact Nat.lt_of_lt_of_eq (Nat.lt_succ_self bufBytes) h2.symm

/-- For SIV_DEC: 16 bytes whose SIV verifies (the received SIV is set to the recomputed one of the empty plaintext) and
whose SIV does not, the capacity, and each error. -/
theorem witness_SivDecCompletes :
    (∃ s : State, s.keysize.toNat ≤ 1 ∧ s.phase ≠ .idle ∧ 16 ≤ s.len.toNat ∧ s.len.toNat ≤ bufBytes ∧ s.len = 16#32) ∧
      (∃ s : State, s.keysize.toNat ≤ 1 ∧ s.phase ≠ .idle ∧ 16 ≤ s.len.toNat ∧ s.len.toNat ≤ bufBytes ∧
        s.len.toNat = bufBytes) ∧
      (∃ s : State, 2 ≤ s.keysize.toNat) ∧ (∃ s : State, s.keysize.toNat ≤ 1 ∧ s.phase = .idle) ∧
      (∃ s : State, s.keysize.toNat ≤ 1 ∧ s.phase ≠ .idle ∧ bufBytes < s.len.toNat) ∧
      ∃ s : State, s.keysize.toNat ≤ 1 ∧ s.phase ≠ .idle ∧ s.len.toNat < 16 ∧ s.len = 15#32 := by
  obtain ⟨h1, h2⟩ := len_at_capacity
  have hb := bufBytes_bounds
  refine ⟨⟨st 0#2 .ad 16#32, by decide, by decide, by decide, hb.1, rfl⟩,
    ⟨st 0#2 .ad (BitVec.ofNat 32 bufBytes), by decide, by simp [st], ?_, Nat.le_of_eq h1, h1⟩,
    ⟨st 3#2 .ad 0#32, by decide⟩, ⟨st 0#2 .idle 5#32, by decide, rfl⟩,
    ⟨st 0#2 .ad (BitVec.ofNat 32 (bufBytes + 1)), by decide, by simp [st], ?_⟩,
    ⟨st 0#2 .ad 15#32, by decide, by decide, by decide, rfl⟩⟩
  · exact Nat.le_trans hb.1 (Nat.le_of_eq h1.symm)
  · exact Nat.lt_of_lt_of_eq (Nat.lt_succ_self bufBytes) h2.symm

/-- A 16-byte SIV_DEC input under an open chain: the received SIV is the block stored, the recomputed one is that of the
empty plaintext, whatever block is stored. -/
def tagOnly (v : Block) : State := presentInput (bytesOfBlock v) (st 0#2 .ad 0#32)

/-- The SIV that `tagOnly` has to hold to verify. -/
def goodTag : Block := s2vFinal Config.aesEnc (key1 (st 0#2 .ad 0#32)) 0#128 []

theorem tagOnly_ibuf (v : Block) : (tagOnly v).ibuf = storeBytes [] 0 (bytesOfBlock v) := by
  simp only [tagOnly, presentInput, st, State.reset]

theorem tagOnly_sivs (v : Block) :
    receivedSiv (tagOnly v) = v ∧ recomputedSiv Config.aesEnc (tagOnly v) = goodTag := by
  constructor
  · have h := readBytes_storeBytes (m := []) Memory.wf_nil 0 (bytesOfBlock v)
    rw [length_bytesOfBlock] at h
    rw [receivedSiv, ibufSlice, tagOnly_ibuf, Nat.sub_zero, h, blockOfBytes_bytesOfBlock]
  · have h : candidatePlaintext Config.aesEnc (tagOnly v) = [] := by
      have hl : inputLen (tagOnly v) = 16 := by simp [inputLen, tagOnly, presentInput]
      rw [candidatePlaintext, hl]
      simp [ctr, ibufSlice, readBytes]
    rw [recomputedSiv, h]
    rfl

theorem tagOnly_check (v : Block) : check .sivDec (tagOnly v) = .noError := by
  have hb := bufBytes_bounds
  have hk : (tagOnly v).keysize.toNat = 0 := rfl
  have hp : (tagOnly v).phase = .ad := rfl
  have hl : (tagOnly v).len.toNat = 16 := rfl
  simp [check_sivDec, hk, hp, hl, Nat.not_lt.2 hb.1]

/-- One block verifies and another does not: both outcomes of SIV_DEC are met, for AuthOnlyFromSivDec and SivDecCompletes. -/
theorem witness_AuthOnlyFromSivDec :
    (∃ s t : State, exec .sivDec s = .next t ∧ s.errcode ≠ .auth ∧ check .sivDec s = .noError ∧
      receivedSiv s = recomputedSiv Config.aesEnc s) ∧
      ∃ s t : State, exec .sivDec s = .next t ∧ s.errcode ≠ .auth ∧ check .sivDec s = .noError ∧
        receivedSiv s ≠ recomputedSiv Config.aesEnc s := by
  refine ⟨⟨tagOnly goodTag, _, rfl, by simp [tagOnly, presentInput, st, State.reset], tagOnly_check _, ?_⟩,
    ⟨tagOnly (~~~goodTag), _, rfl, by simp [tagOnly, presentInput, st, State.reset], tagOnly_check _, ?_⟩⟩
  · rw [(tagOnly_sivs _).1, (tagOnly_sivs _).2]
  · rw [(tagOnly_sivs _).1, (tagOnly_sivs _).2]
    exact fun h => absurd (congrArg (fun b : Block => b.getLsbD 0) h) (by simp)

/-- A SIV_DEC in flight that meets the invariant and passes its checks, with either outcome. -/
theorem witness_UnverifiedPlaintextIsNeverReleased (v : Block) :
    State.Inv (issue 0x8#32 (tagOnly v)) ∧ (issue 0x8#32 (tagOnly v)).busy = true ∧
      check .sivDec (issue 0x8#32 (tagOnly v)) = .noError ∧
      (v = goodTag → receivedSiv (issue 0x8#32 (tagOnly v)) = recomputedSiv Config.aesEnc (issue 0x8#32 (tagOnly v))) ∧
      (v ≠ goodTag → receivedSiv (issue 0x8#32 (tagOnly v)) ≠ recomputedSiv Config.aesEnc (issue 0x8#32 (tagOnly v))) := by
  have hb := bufBytes_bounds
  have hi : ∀ s : State, receivedSiv (issue 0x8#32 s) = receivedSiv s ∧
      recomputedSiv Config.aesEnc (issue 0x8#32 s) = recomputedSiv Config.aesEnc s ∧
      check .sivDec (issue 0x8#32 s) = check .sivDec s := fun s => ⟨rfl, rfl, rfl⟩
  have hr : receivedSiv (issue 0x8#32 (tagOnly v)) = v := (hi _).1.trans (tagOnly_sivs v).1
  have hc : recomputedSiv Config.aesEnc (issue 0x8#32 (tagOnly v)) = goodTag := (hi _).2.1.trans (tagOnly_sivs v).2
  have hw : Memory.wf (tagOnly v).ibuf = true := by
    rw [tagOnly_ibuf]
    exact wf_storeBytes Memory.wf_nil _ _
  have hl : Memory.below bufBytes (tagOnly v).ibuf = true := by
    rw [tagOnly_ibuf]
    exact below_storeBytes (m := []) rfl (by rw [length_bytesOfBlock]; omega)
  refine ⟨⟨fun h => absurd h (by simp [tagOnly, presentInput, st]), fun _ => ⟨rfl, rfl⟩,
    fun _ => ⟨rfl, rfl, rfl, rfl, rfl, rfl⟩, by rw [issue_ibuf]; exact hw, by rw [issue_ibuf]; exact hl, rfl, rfl,
    Nat.zero_le _⟩, rfl, (hi _).2.2.trans (tagOnly_check v),
    fun h => by rw [hr, hc, h], fun h => by rw [hr, hc]; exact h⟩

/-- NOP meets the premise of every clause. -/
theorem witness_CommandsWriteOnlyTheirOutputs :
    (∃ (i : Instr) (s t : State), exec i s = .next t ∧ i ≠ .zeroize ∧ i ∉ [Instr.ctr, .sivEnc, .sivDec] ∧
      i ∈ [Instr.nop, .cmac, .ctr, .dbl, .xor, .pad, .mask] ∧ i ∈ [Instr.nop, .s2vInit, .s2vAd, .s2vNonce, .ctr]) ∧
      ∃ (i : Instr) (s t : State), exec i s = .next t ∧ i ∉ [Instr.ctr, .sivEnc, .sivDec] ∧ i = .zeroize :=
  ⟨⟨.nop, State.reset, _, rfl, by decide, by decide, by decide, by decide⟩,
    ⟨.zeroize, State.reset, _, rfl, by decide, by decide⟩⟩

theorem witness_OutputBytesOfObuf :
    ∃ s : State, Memory.wf s.obuf = true ∧ s.keysize.toNat ≤ 1 ∧ s.len.toNat ≤ bufBytes ∧ s.phase ≠ .idle ∧
      16 ≤ s.len.toNat :=
  ⟨st 0#2 .ad 16#32, by decide, by decide, bufBytes_bounds.1, by decide, by decide⟩

theorem witness_IbufBeyondLenIsNeverRead :
    ∃ (i : Instr) (s t : State) (m : Memory), exec i s = .next t ∧
      (∀ a < s.len.toNat, Memory.read m a = Memory.read s.ibuf a) ∧ m ≠ s.ibuf :=
  ⟨.sivEnc, st 0#2 .ad 16#32, _, [(16, 1#8)], rfl, by decide, by decide⟩

theorem witness_UnusedKeyBytesAreNeverRead :
    (∃ (i : Instr) (s t : State) (k : Vector Byte 64), exec i s = .next t ∧
      (keyUsing i = true → s.keysize = 0#2 ∧ ∀ j < 32, k.toList.getD j 0#8 = s.key.toList.getD j 0#8) ∧
      keyUsing i = true ∧ k ≠ s.key) ∧
      ∃ (i : Instr) (s t : State) (k : Vector Byte 64), exec i s = .next t ∧
        (keyUsing i = true → s.keysize = 0#2 ∧ ∀ j < 32, k.toList.getD j 0#8 = s.key.toList.getD j 0#8) ∧
        keyUsing i = false ∧ k ≠ s.key :=
  ⟨⟨.cmac, State.reset, _, State.reset.key.setIfInBounds 32 1#8, rfl, by decide, by decide, by decide⟩,
    ⟨.dbl, st 3#2 .idle 0#32, _, State.reset.key.setIfInBounds 0 1#8, rfl, by decide, by decide, by decide⟩⟩

theorem witness_PhaseTransitions :
    check .sivEnc (st 0#2 .idle 0#32) ≠ .noError ∧ check .s2vInit (st 0#2 .nonceDone 0#32) = .noError ∧
      check .s2vAd (st 0#2 .ad 0#32) = .noError ∧ check .s2vNonce (st 0#2 .ad 0#32) = .noError ∧
      check .s2vNonce (st 0#2 .ad 16#32) = .noError ∧ check .s2vFinal (st 0#2 .nonceDone 0#32) = .noError ∧
      check .sivDec (st 0#2 .ad 16#32) = .noError ∧ check .zeroize (st 3#2 .ad 0#32) = .noError ∧
      check .nop (st 3#2 .ad 0#32) = .noError := by
  have hb := bufBytes_bounds
  have h16 : ¬ bufBytes < (st 0#2 .ad 16#32).len.toNat := Nat.not_lt.2 hb.1
  refine ⟨by decide, by decide, by decide, by decide, ?_, by decide, ?_, by decide, by decide⟩
  · rw [check_fold _ (by decide), if_neg (by decide), if_neg (by decide), if_neg h16]
  · rw [check_sivDec, if_neg (by decide), if_neg (by decide), if_neg h16, if_neg (by decide)]

theorem witness_CheckOrder :
    (∃ (w : Word) (e : Illegal), decode w = .error e) ∧ ∃ (w : Word) (i : Instr), decode w = .ok i :=
  ⟨⟨0x10#32, .nonzeroUpperBits, by decide⟩, ⟨0x8#32, .sivDec, by decide⟩⟩

theorem witness_ErrorOutcomeSetsOnlyErrcode : ∃ (i : Instr) (s : State), check i s ≠ .noError :=
  ⟨.xor, st 0#2 .idle 15#32, by decide⟩

theorem witness_functions :
    (∃ bs : List Byte, bs.length = 16) ∧ (∃ i : Nat, i < 16 ∧ i = 15) ∧
      (∃ m : List Byte, m.length ≤ 15 ∧ m.length = 15) ∧
      (∃ (bs : List Block) (tail : List Byte), tail.length ≤ 16 ∧ (tail.length = 0 → bs = []) ∧ tail.length = 16) ∧
      (∃ (bs : List Block) (tail : List Byte), tail.length ≤ 16 ∧ (tail.length = 0 → bs = []) ∧ tail.length = 0) ∧
      (∃ p : List Byte, 16 ≤ p.length ∧ p.length = 16) ∧ (∃ p : List Byte, p.length < 16 ∧ p.length = 15) ∧
      (∃ i : Nat, i < 256 ∧ i = 255) ∧ ∃ (x : List Byte) (i : Nat), i < x.length ∧ i = 16 :=
  ⟨⟨List.replicate 16 0#8, by decide⟩, ⟨15, by decide, rfl⟩, ⟨List.replicate 15 0#8, by decide, by decide⟩,
    ⟨[0#128], List.replicate 16 0#8, by decide, by decide, by decide⟩, ⟨[], [], by decide, by decide, by decide⟩,
    ⟨List.replicate 16 0#8, by decide, by decide⟩, ⟨List.replicate 15 0#8, by decide, by decide⟩, ⟨255, by decide, rfl⟩,
    ⟨List.replicate 17 0#8, 16, by decide, rfl⟩⟩

theorem witness_KeySplit : (∃ s : State, s.keysize = 0#2) ∧ ∃ s : State, s.keysize = 1#2 :=
  ⟨⟨State.reset, by decide⟩, ⟨st 1#2 .idle 0#32, by decide⟩⟩

/-- The two bus errors, and the boundary that is none. -/
theorem witness_BusErrorsExactlyTwo :
    (transact { kind := .read, addr := 0x062#14, wdata := 0#32, wstrb := 0#4 } State.reset).resp =
        some { rdata := 0#32, err := true } ∧
      (transact { kind := .write, addr := 0x008#14, wdata := 1#32, wstrb := 0b0111#4 } State.reset).resp =
        some { rdata := 0#32, err := true } ∧
      (transact { kind := .write, addr := 0x008#14, wdata := 1#32, wstrb := 0xF#4 } State.reset).resp =
        some { rdata := 0#32, err := false } := by decide

theorem witness_ReadsHaveNoSideEffect :
    ∃ (s : State) (addr : BitVec 14) (w : Word) (wstrb : BitVec 4) (rest : List Event),
      s.events = .host { kind := .read, addr := addr, wdata := w, wstrb := wstrb } :: rest :=
  ⟨{ flying 0x9#32 0#2 .ad 0#32 with events := [hostRd 0x070] }, 0x070#14, 0#32, 0#4, [], by decide⟩

/-- An address that is hidden while busy, at both ends of what the clause covers. -/
theorem witness_BusyReadsShowOnlyControlRegisters :
    ∃ s : State, s.busy = true ∧
      ((0x008#14).toNat % 4 = 0 ∧ 0x008#14 ∉ [0x000#14, 0x004#14, 0x00C#14, 0x010#14, 0x014#14, 0x018#14]) ∧
      (0x3FFC#14).toNat % 4 = 0 ∧ 0x3FFC#14 ∉ [0x000#14, 0x004#14, 0x00C#14, 0x010#14, 0x014#14, 0x018#14] :=
  ⟨flying 0x9#32 0#2 .idle 0#32, by decide, by decide, by decide, by decide⟩

theorem witness_BusyWritesAreIgnored :
    ∃ s : State, s.busy = true ∧ (0x008#14).toNat % 4 = 0 ∧ (0x00C#14).toNat % 4 = 0 ∧ (0x010#14).toNat % 4 = 0 ∧
      0x010#14 ≠ 0x008#14 ∧ 0x010#14 ≠ 0x00C#14 :=
  ⟨flying 0x9#32 0#2 .idle 0#32, by decide, by decide, by decide, by decide, by decide, by decide⟩

theorem witness_OperandsHoldFromIssueToCompletion :
    ∃ (s t : State) (trs : List Transaction), s.busy = true ∧ t = trs.foldl (fun u tr => transact tr u) s ∧ trs ≠ [] :=
  ⟨flying 0x9#32 0#2 .ad 0#32, _, [{ kind := .write, addr := 0x020#14, wdata := 0#32, wstrb := 0xF#4 }], by decide, rfl,
    by decide⟩

/-- The first and the last words of the regions that the address clauses name. -/
theorem witness_KeyIsNeverReadable_ReadOnlyAndReservedAddresses :
    ((0x020#14).toNat % 4 = 0 ∧ 0x020 ≤ (0x020#14).toNat ∧ (0x020#14).toNat < 0x060) ∧
      ((0x05C#14).toNat % 4 = 0 ∧ 0x020 ≤ (0x05C#14).toNat ∧ (0x05C#14).toNat < 0x060) ∧
      ((0x070#14).toNat % 4 = 0 ∧ 0x070 ≤ (0x070#14).toNat ∧ (0x070#14).toNat < 0x1000) ∧
      ((0x090#14).toNat % 4 = 0 ∧ 0x090 ≤ (0x090#14).toNat ∧ (0x090#14).toNat < 0x1000) ∧
      ((0xFFC#14).toNat % 4 = 0 ∧ 0x090 ≤ (0xFFC#14).toNat ∧ (0xFFC#14).toNat < 0x1000) ∧
      ((0x2000#14).toNat % 4 = 0 ∧ 0x2000 ≤ (0x2000#14).toNat) ∧ (0x3FFC#14).toNat % 4 = 0 ∧
      ∃ s : State, s.busy = false :=
  ⟨by decide, by decide, by decide, by decide, by decide, by decide, by decide, ⟨State.reset, by decide⟩⟩

theorem witness_ByteRegions :
    ∃ (s : State) (k j : Nat), s.busy = false ∧ s.phase = .idle ∧ Memory.wf s.ibuf = true ∧ j < 4 ∧ j = 3 ∧ k < 4 ∧ k < 16 ∧ k < 1024 ∧ k = 3 :=
  ⟨State.reset, 3, 3, by decide, by decide, by decide, by decide, by decide, by decide, by decide, by decide, by decide⟩

theorem witness_ControlRegistersMergeByLane :
    (∃ s : State, s.busy = false ∧ s.phase = .idle) ∧ ∃ s : State, s.busy = false ∧ s.phase ≠ .idle :=
  ⟨⟨State.reset, by decide, by decide⟩, ⟨st 0#2 .nonceDone 0#32, by decide, by decide⟩⟩

/-- The writes that close a chain (the first and the last word of KEY, a KEYSIZE change) and the writes next to them
that do not (no strobe, the word after KEY, the same KEYSIZE, lane 0 not strobed, a misaligned address, BUSY = 1). -/
theorem witness_ChainAbort :
    (closesOpenChain 0x020#14 0#32 0b0001#4 (st 0#2 .ad 0#32) ∧ closesOpenChain 0x05C#14 0#32 0b1000#4 (st 0#2 .ad 0#32) ∧
      closesOpenChain 0x004#14 2#32 0b0001#4 (st 0#2 .ad 0#32) ∧
      (busWrite 0x004#14 2#32 0b0001#4 (st 0#2 .ad 0#32)).keysize.toNat ≤ 1) ∧
    (¬ closesOpenChain 0x05C#14 0#32 0#4 (st 0#2 .ad 0#32) ∧ ¬ closesOpenChain 0x060#14 0#32 0xF#4 (st 0#2 .ad 0#32) ∧
      ¬ closesOpenChain 0x004#14 1#32 0xF#4 (st 0#2 .ad 0#32) ∧ ¬ closesOpenChain 0x004#14 2#32 0b1110#4 (st 0#2 .ad 0#32) ∧
      ¬ closesOpenChain 0x021#14 0#32 0xF#4 (st 0#2 .ad 0#32)) ∧
    ¬ closesOpenChain 0x020#14 0#32 0xF#4 (flying 0x2#32 0#2 .ad 0#32) ∧
    (st 0#2 .ad 0#32).phase ≠ .idle ∧ (flying 0x2#32 0#2 .ad 0#32).phase ≠ .idle :=
  ⟨⟨by decide, by decide, by decide, by decide⟩, ⟨by decide, by decide, by decide, by decide, by decide⟩, by decide,
    by decide, by decide⟩

theorem witness_IrqFollowsDoneAndEnable :
    (∃ s t : State, completion s = .next t) ∧ (∃ w : Word, w.getLsbD 1 = true) ∧ ∃ s : State, s.busy = false :=
  ⟨⟨flying 0x9#32 0#2 .idle 0#32, _, rfl⟩, ⟨2#32, by decide⟩, ⟨State.reset, by decide⟩⟩

/-- Both sticky bits set, and a STATUS write that clears only DONE. -/
theorem witness_StickyBitsStick :
    ∃ s t : State, step s = .next t ∧ (∀ rest, s.events ≠ .reset :: rest) ∧
      (∀ tr rest, s.events = .host tr :: rest → tr.kind = .write → tr.addr = 0x00C#14 → tr.wdata.getLsbD 3 = false) ∧
      (∀ tr rest, s.events = .host tr :: rest → tr.kind = .write → tr.addr = 0x00C#14 → tr.wdata.getLsbD 4 = false) ∧
      s.cmdOvr = true ∧ s.busViol = true := by
  refine ⟨{ State.reset with cmdOvr := true, busViol := true, events := [hostWr 0x00C 0x2#32] }, _, rfl, ?_, ?_, ?_, rfl, rfl⟩
  · intro rest h
    cases h
  · intro tr rest h _ _
    cases h
    decide
  · intro tr rest h _ _
    cases h
    decide

theorem witness_ResetClearsEverything : ∃ (s : State) (rest : List Event), s.events = .reset :: rest :=
  ⟨{ flying 0x7#32 1#2 .ad 16#32 with events := [.reset] }, [], by decide⟩

/-- A state that meets the invariant. -/
theorem inv_idle : State.Inv (st 1#2 .idle 16#32) :=
  ⟨fun _ => rfl, fun _ => ⟨rfl, rfl⟩, fun h => absurd h (by decide), rfl, rfl, rfl, rfl, Nat.zero_le _⟩

/-- A command in flight that meets the invariant and has a step. -/
theorem witness_StepKeepsTheInvariant :
    ∃ s t : State, State.Inv s ∧ step s = .next t ∧ s.busy = true :=
  ⟨flying 0x9#32 0#2 .ad 0#32, _, ⟨fun _ => rfl, fun _ => ⟨rfl, rfl⟩, fun _ => ⟨rfl, rfl, rfl, rfl, rfl, rfl⟩, rfl, rfl, rfl,
    rfl, Nat.zero_le _⟩, rfl, rfl⟩

/-- A string, a nonce and a payload that fill the buffer. -/
theorem witness_ChainComputesS2v :
    ∃ (s : State) (ads : List (List Byte)) (nonce p : List Byte), State.Inv s ∧ s.keysize.toNat ≤ 1 ∧
      (∀ a ∈ ads, a.length ≤ bufBytes) ∧ nonce.length ≤ bufBytes ∧ p.length ≤ bufBytes ∧ ads ≠ [] ∧
      p.length = bufBytes := by
  refine ⟨st 1#2 .idle 16#32, [List.replicate bufBytes 0#8, []], List.replicate bufBytes 1#8,
    List.replicate bufBytes 2#8, inv_idle,
    by decide, ?_, by simp, by simp, by simp, by simp⟩
  intro a ha
  simp only [List.mem_cons, List.not_mem_nil, or_false] at ha
  rcases ha with rfl | rfl <;> simp

/-- The longest plaintext that SIV_DEC can take back. -/
theorem witness_DecryptUndoesEncrypt :
    ∃ (s : State) (ads : List (List Byte)) (nonce p : List Byte), State.Inv s ∧ s.keysize.toNat ≤ 1 ∧
      (∀ a ∈ ads, a.length ≤ bufBytes) ∧ nonce.length ≤ bufBytes ∧ p.length + 16 ≤ bufBytes ∧
      p.length + 16 = bufBytes := by
  have hb := bufBytes_bounds
  refine ⟨st 1#2 .idle 16#32, [[]], [], List.replicate (bufBytes - 16) 0#8, inv_idle, by decide, by simp, by simp, ?_, ?_⟩ <;>
  · rw [List.length_replicate]
    omega

end Sys2Proof.Tests
end

/-! The block as an integer (00_scope.md R10): its bytes are the base-256 digits of its value, and the value is
their sum. -/

namespace Sys2Proof.Machine

/-- The low `n` base-256 digits of a number add up to the number modulo `256 ^ n`. -/
theorem sum_byteDigits (v n : Nat) :
    ∑ i ∈ Finset.range n, v / 2 ^ (8 * i) % 256 * 2 ^ (8 * i) = v % 2 ^ (8 * n) := by
  induction n with
  | zero => simp [Nat.mod_one]
  | succ n ih =>
    have hdigit : v % 2 ^ (8 * (n + 1)) = v % 2 ^ (8 * n) + 2 ^ (8 * n) * (v / 2 ^ (8 * n) % 256) := by
      rw [Nat.mul_succ, Nat.pow_add, Nat.mod_mul]
    rw [Finset.sum_range_succ, ih, hdigit, Nat.mul_comm (2 ^ (8 * n))]

/-- Byte `i` of a block is digit `15 - i` of its value. -/
theorem toNat_blockByte (x : Block) (i : Nat) : (blockByte x i).toNat = x.toNat / 2 ^ (8 * (15 - i)) % 256 := by
  rw [blockByte, BitVec.extractLsb'_toNat, Nat.shiftRight_eq_div_pow]

/-- The value of a block, byte 0 the most significant. -/
theorem toNat_eq_sum_blockByte (x : Block) :
    x.toNat = ∑ i ∈ Finset.range 16, (blockByte x i).toNat * 2 ^ (8 * (15 - i)) :=
  calc x.toNat
    _ = ∑ i ∈ Finset.range 16, x.toNat / 2 ^ (8 * i) % 256 * 2 ^ (8 * i) := by
      rw [sum_byteDigits, Nat.mod_eq_of_lt x.isLt]
    _ = ∑ i ∈ Finset.range 16, x.toNat / 2 ^ (8 * (15 - i)) % 256 * 2 ^ (8 * (15 - i)) :=
      (Finset.sum_range_reflect _ 16).symm
    _ = ∑ i ∈ Finset.range 16, (blockByte x i).toNat * 2 ^ (8 * (15 - i)) := by simp only [toNat_blockByte]

/-- A digit of a number below the 16th survives the reduction modulo `2 ^ 128`. -/
theorem toNat_blockByte_ofNat (v : Nat) {i : Nat} (hi : i < 16) :
    (blockByte (BitVec.ofNat 128 v) i).toNat = v / 2 ^ (8 * (15 - i)) % 256 := by
  have hsplit : 2 ^ 128 = 2 ^ (8 * (15 - i)) * 2 ^ (8 * (i + 1)) := by
    rw [← Nat.pow_add, show 8 * (15 - i) + 8 * (i + 1) = 128 by omega]
  have hdvd : 256 ∣ 2 ^ (8 * (i + 1)) := Nat.pow_dvd_pow 2 (show 8 ≤ 8 * (i + 1) by omega)
  rw [toNat_blockByte, BitVec.toNat_ofNat, hsplit, Nat.mod_mul_right_div_self, Nat.mod_mod_of_dvd _ hdvd]

/-- Settles O32: the bytes of `blk` of a string are the string (`blockByte_blockOfBytes`), and a block is the sum of its
bytes. -/
theorem blocksAreBigEndian : Obligations.BlocksAreBigEndian := by
  refine ⟨fun bs hlen => ?_, fun v i hi => toNat_blockByte_ofNat v hi⟩
  rw [toNat_eq_sum_blockByte]
  refine Finset.sum_congr rfl fun i hi => ?_
  rw [blockByte_blockOfBytes hlen (Finset.mem_range.mp hi)]

end Sys2Proof.Machine

/-! The invariant (10_state.md R46): reset meets it and every step keeps it. -/

namespace Sys2Proof.Machine

/-- The part of the invariant that does not speak of BUSY: what a command has to establish by its completion
(`inv_finish`). -/
structure Settled (s : State) : Prop where
  closed : closedChainIsZero s
  released : nothingUnreleased s
  buffers : buffersCanonical s

theorem State.Inv.settled {s : State} (h : State.Inv s) : Settled s := by
  obtain ⟨hclosed, hreleased, -, hbuf⟩ := h
  exact ⟨hclosed, hreleased, hbuf⟩

/-- A command in flight has an empty OBUF (10_state.md R46). -/
theorem State.Inv.obuf_of_busy {s : State} (h : State.Inv s) (hb : s.busy = true) : s.obuf = [] := by
  obtain ⟨-, -, hquiet, -⟩ := h
  obtain ⟨-, -, -, -, -, hobuf⟩ := hquiet hb
  exact hobuf

/-- At the end of a completion step nothing is in flight, so the third clause asks nothing. -/
theorem inv_finish {s : State} (h : Settled s) : State.Inv (finish s) :=
  ⟨h.closed, h.released, fun hb => absurd hb Bool.false_ne_true, h.buffers⟩

/-! ### Completion -/

theorem settled_takeError {s : State} (e : ErrCode) (h : Settled s) : Settled (takeError e s) :=
  ⟨h.closed, h.released, h.buffers⟩

theorem settled_closeChain {s : State} (h : Settled s) : Settled (closeChain s) :=
  ⟨fun _ => rfl, h.released, h.buffers⟩

/-- Releasing an OBUF in canonical form, zero past the new OUTLEN (43_siv.md R234 to R236). -/
theorem settled_release {s : State} (h : Settled s) {m : Memory} {n : Word} (r : Block) (hwf : Memory.wf m = true)
    (hbelow : Memory.below n.toNat m = true) (hn : n.toNat ≤ obufBytes) :
    Settled { s with obuf := m, outlen := n, result := r, outValid := true } := by
  obtain ⟨hi, hib, -⟩ := h.buffers
  exact ⟨h.closed, fun hv => absurd hv Bool.noConfusion, hi, hib, hwf, hbelow, hn⟩

/-- The commands that read LEN bytes of IBUF pass their check only within its capacity (60_exceptions.md R276). -/
theorem len_le_of_check {i : Instr} {s : State} (hl : lengthFails i s = decide (bufBytes < inputLen s))
    (hc : check i s = .noError) : s.len.toNat ≤ bufBytes := by
  obtain ⟨-, -, hlen, -⟩ := (check_noError_iff i s).1 hc
  exact Nat.not_lt.1 (of_decide_eq_false (hl ▸ hlen))

theorem settled_ctrEffect {s : State} (h : Settled s) (hobuf : s.obuf = []) (hc : check .ctr s = .noError) :
    Settled (ctrEffect Config.aesEnc s) := by
  have hlen : s.len.toNat ≤ bufBytes := len_le_of_check rfl hc
  refine settled_release h s.result ?_ ?_ ?_
  · exact wf_storeBytes (hobuf ▸ rfl) 0 _
  · refine below_storeBytes (hobuf ▸ rfl) ?_
    rw [length_ctr, length_inputBytes, Nat.zero_add]
  · unfold obufBytes
    omega

theorem settled_sivEncEffect {s : State} (h : Settled s) (hobuf : s.obuf = []) (hc : check .sivEnc s = .noError) :
    Settled (sivEncEffect Config.aesEnc s) := by
  have hlen : s.len.toNat ≤ bufBytes := len_le_of_check rfl hc
  have houtlen : (16#32 + s.len).toNat = 16 + s.len.toNat := by
    obtain ⟨-, hbuf, -⟩ := bufBytes_bounds
    rw [BitVec.toNat_add]
    exact Nat.mod_eq_of_lt (by simp only [BitVec.toNat_ofNat]; omega)
  refine settled_closeChain (settled_release h _ ?_ ?_ ?_)
  · exact wf_storeBytes (wf_storeBytes (hobuf ▸ rfl) 0 _) 16 _
  · refine below_storeBytes (below_storeBytes (hobuf ▸ rfl) ?_) ?_
    · rw [length_bytesOfBlock, houtlen]
      omega
    · rw [length_ctr, length_inputBytes, houtlen]
  · unfold obufBytes
    omega

/-- The plaintext is as long as the ciphertext after the SIV (43_siv.md R236). -/
theorem length_candidatePlaintext (enc : BlockCipher) (s : State) :
    (candidatePlaintext enc s).length = s.len.toNat - 16 := by
  rw [candidatePlaintext, length_ctr, ibufSlice, length_readBytes, inputLen]

theorem settled_sivDecEffect {s : State} (h : Settled s) (hobuf : s.obuf = []) (hc : check .sivDec s = .noError) :
    Settled (sivDecEffect Config.aesEnc s) := by
  have hlen : s.len.toNat ≤ bufBytes := len_le_of_check rfl hc
  have hmin : 16 ≤ s.len.toNat := by
    obtain ⟨-, -, -, hm⟩ := (check_noError_iff .sivDec s).1 hc
    exact Nat.not_lt.1 (of_decide_eq_false hm)
  have houtlen : (s.len - 16#32).toNat = s.len.toNat - 16 := BitVec.toNat_sub_of_le hmin
  unfold sivDecEffect
  dsimp only
  split
  · refine settled_release (settled_closeChain h) _ ?_ ?_ ?_
    · exact wf_storeBytes (hobuf ▸ rfl) 0 _
    · refine below_storeBytes (hobuf ▸ rfl) ?_
      rw [length_candidatePlaintext, houtlen, Nat.zero_add]
    · unfold obufBytes
      omega
  · exact settled_takeError .auth (settled_closeChain h)

/-- S2V_AD and S2V_NONCE pass their check in phase AD only (42_s2v.md R202, R203). -/
theorem phase_of_check_fold {i : Instr} {s : State} (hi : i = .s2vAd ∨ i = .s2vNonce)
    (hc : check i s = .noError) : s.phase = .ad := by
  by_contra hp
  rw [check_fold s hi, if_pos hp] at hc
  split at hc <;> cases hc

/-- The one place where OBUF has to be empty at the start is a command that releases output: CTR, SIV_ENC, SIV_DEC. -/
theorem settled_effectOf (i : Instr) {s : State} (h : Settled s) (hobuf : s.obuf = [])
    (hc : check i s = .noError) : Settled (effectOf i s) := by
  cases i with
  | nop | cmac | dbl | xor | pad | mask => exact ⟨h.closed, h.released, h.buffers⟩
  | zeroize => exact ⟨fun _ => rfl, fun _ => ⟨rfl, rfl⟩, ⟨rfl, rfl, rfl, rfl, Nat.zero_le _⟩⟩
  | s2vInit => exact ⟨(nomatch ·), h.released, h.buffers⟩
  | s2vAd =>
    have hp : s.phase ≠ .idle := by simp [phase_of_check_fold (.inl rfl) hc]
    exact ⟨fun hidle => absurd hidle hp, h.released, h.buffers⟩
  | s2vNonce =>
    change Settled (s2vNonceEffect Config.aesEnc s)
    unfold s2vNonceEffect
    split
    · exact ⟨(nomatch ·), h.released, h.buffers⟩
    · exact h
  | s2vFinal => exact ⟨fun _ => rfl, h.released, h.buffers⟩
  | ctr => exact settled_ctrEffect h hobuf hc
  | sivEnc => exact settled_sivEncEffect h hobuf hc
  | sivDec => exact settled_sivDecEffect h hobuf hc

theorem inv_completion {s t : State} (h : State.Inv s) (hb : s.busy = true) (ht : completion s = .next t) :
    State.Inv t := by
  rcases completion_cases s with ⟨i, -, hc, he⟩ | ⟨-, he⟩
  · obtain rfl : finish (effectOf i s) = t := by simpa [he] using ht
    exact inv_finish (settled_effectOf i h.settled (h.obuf_of_busy hb) hc)
  · obtain rfl : finish (takeError (checkWord s.pending s) s) = t := by simpa [he] using ht
    exact inv_finish (settled_takeError _ h.settled)

/-! ### Bus transactions -/

theorem inv_issue {s : State} (w : Word) (h : State.Inv s) : State.Inv (issue w s) := by
  obtain ⟨hi, hib, -⟩ := h.settled.buffers
  exact ⟨h.settled.closed, fun _ => ⟨rfl, rfl⟩, fun _ => ⟨rfl, rfl, rfl, rfl, rfl, rfl⟩, hi, hib, rfl, rfl,
    Nat.zero_le _⟩

/-- A STATUS write raises no DONE. -/
theorem inv_clearStatus {s : State} (w : Word) (wstrb : BitVec 4) (h : State.Inv s) :
    State.Inv (clearStatus w wstrb s) := by
  obtain ⟨hclosed, hreleased, hquiet, hbuf⟩ := h
  refine ⟨hclosed, hreleased, fun hb => ?_, hbuf⟩
  obtain ⟨hdone, hrest⟩ := hquiet hb
  exact ⟨by simp [clearStatus, hdone], hrest⟩

theorem inv_abortChain {s : State} (h : State.Inv s) : State.Inv (abortChain s) := by
  unfold abortChain
  split
  · exact h
  · obtain ⟨-, hrest⟩ := h
    exact ⟨fun _ => rfl, hrest⟩

theorem inv_writeCtrl {s : State} (w : Word) (wstrb : BitVec 4) (h : State.Inv s) :
    State.Inv (writeCtrl w wstrb s) := by
  unfold writeCtrl
  dsimp only
  split
  · exact h
  · exact inv_abortChain h

theorem inv_writeKey {s : State} (i : Nat) (w : Word) (wstrb : BitVec 4) (h : State.Inv s) :
    State.Inv (writeKey i w wstrb s) := by
  unfold writeKey
  dsimp only
  split
  · exact h
  · exact inv_abortChain h

/-- A write to the IBUF window keeps the form and the capacity of IBUF. -/
theorem inv_writeIbuf {s : State} (i : Nat) (w : Word) (wstrb : BitVec 4) (h : State.Inv s) :
    State.Inv { s with ibuf := writeLanes ibufSet i w wstrb s.ibuf } := by
  obtain ⟨hclosed, hreleased, hquiet, hi, hib, hobuf⟩ := h
  have hwf : Memory.wf (writeLanes ibufSet i w wstrb s.ibuf) = true :=
    writeLanes_keeps (P := fun m => Memory.wf m = true) (fun _ => wf_ibufSet) i w wstrb hi
  have hbelow : Memory.below bufBytes (writeLanes ibufSet i w wstrb s.ibuf) = true :=
    writeLanes_keeps (P := fun m => Memory.below bufBytes m = true) (fun _ => below_ibufSet) i w wstrb hib
  exact ⟨hclosed, hreleased, hquiet, hwf, hbelow, hobuf⟩

theorem inv_writeIdle {s : State} (l : Loc) (w : Word) (wstrb : BitVec 4) (h : State.Inv s) :
    State.Inv (writeIdle l w wstrb s) := by
  cases l with
  | cmd => exact inv_issue w h
  | status => exact inv_clearStatus w wstrb h
  | ctrl => exact inv_writeCtrl w wstrb h
  | key i => exact inv_writeKey i w wstrb h
  | ibuf i => exact inv_writeIbuf i w wstrb h
  | len | iv | id | outlen | caps | result | acc | obuf | reserved => exact h

theorem inv_writeBusy {s : State} (l : Loc) (w : Word) (wstrb : BitVec 4) (h : State.Inv s) :
    State.Inv (writeBusy l w wstrb s) := by
  rcases writeBusy_cases l w wstrb s with ⟨-, he⟩ | ⟨-, he⟩ | ⟨-, -, he⟩ <;> rw [he]
  · exact h
  · exact inv_clearStatus w wstrb h
  · exact h

theorem inv_busWrite {s : State} (addr : BitVec 14) (w : Word) (wstrb : BitVec 4) (h : State.Inv s) :
    State.Inv (busWrite addr w wstrb s) := by
  rcases busWrite_cases addr w wstrb s with ⟨-, he⟩ | ⟨-, -, he⟩ | ⟨-, -, he⟩ <;> rw [he]
  · exact h
  · exact inv_writeBusy _ w wstrb h
  · exact inv_writeIdle _ w wstrb h

/-- The response of a transaction is no part of the invariant. -/
theorem inv_transact {s : State} (tr : Transaction) (h : State.Inv s) : State.Inv (transact tr s) := by
  unfold transact
  split
  · exact h
  · exact inv_busWrite tr.addr tr.wdata tr.wstrb h

/-! ### The obligations -/

theorem inv_reset : State.Inv State.reset :=
  ⟨fun _ => rfl, fun _ => ⟨rfl, rfl⟩, fun hb => absurd hb Bool.false_ne_true, rfl, rfl, rfl, rfl, Nat.zero_le _⟩

/-- Settles O56: every clause is about zero, empty or false fields. -/
theorem resetMeetsTheInvariant : Obligations.ResetMeetsTheInvariant := inv_reset

/-- Settles O57, agent by agent (`step_cases`): a completion step by `inv_completion`, a transaction by `inv_transact`,
a RESET by `inv_reset`. The schedule is no part of the invariant, so an event taken from it changes nothing. -/
theorem stepKeepsTheInvariant : Obligations.StepKeepsTheInvariant := by
  intro s t h hstep
  rcases step_cases hstep with ⟨-, hb, ht⟩ | ⟨-, -, rfl⟩ | ⟨tr, rest, -, rfl⟩ | ⟨rest, -, hb, ht⟩ | ⟨rest, -, -, rfl⟩ |
    ⟨rest, -, rfl⟩
  · exact inv_completion h hb ht
  · exact h
  · exact inv_transact tr h
  · exact inv_completion (s := { s with events := rest }) h hb ht
  · exact h
  · exact inv_reset

end Sys2Proof.Machine

/-! The control registers as the host reads and writes them (10_state.md R30 to R33, R38, R41; 20_memory.md R65, R66,
R70). -/

namespace Sys2Proof.Machine

/-! ### Reading -/

/-- The aligned addresses that stay readable while a command is in flight (20_memory.md R70). -/
theorem locate_readable_iff (a : Nat) :
    locate a ∈ [Loc.id, .ctrl, .status, .len, .outlen, .caps] ↔ a ∈ [0x000, 0x004, 0x00C, 0x010, 0x014, 0x018] := by
  by_cases h : a < 0x020
  · exact (by decide : ∀ a < 0x020,
      locate a ∈ [Loc.id, .ctrl, .status, .len, .outlen, .caps] ↔ a ∈ [0x000, 0x004, 0x00C, 0x010, 0x014, 0x018]) a h
  · have haddr : a ∉ [0x000, 0x004, 0x00C, 0x010, 0x014, 0x018] := fun e =>
      h ((by decide : ∀ x ∈ [0x000, 0x004, 0x00C, 0x010, 0x014, 0x018], x < 0x020) a e)
    rw [locate_of_not_control (by omega)]
    refine iff_of_false ?_ haddr
    repeat' split
    all_goals simp

theorem readLoc_of_busy {l : Loc} {s : State} (hb : s.busy = true)
    (hl : l ∉ [Loc.id, .ctrl, .status, .len, .outlen, .caps]) : readLoc l s = 0#32 := by
  cases l with
  | id | ctrl | status | len | outlen | caps => simp at hl
  | cmd | key | reserved => rfl
  | iv | result | acc | ibuf | obuf => simp [readLoc, hiddenWhileBusy, hb]

theorem busRead_of_aligned {addr : BitVec 14} (h : addr.toNat % 4 = 0) (s : State) :
    busRead addr s = { rdata := readLoc (locate addr.toNat) s, err := false } := by
  rw [busRead, aligned_eq, if_pos (decide_eq_true h)]

/-- CAPS holds BUF_BYTES in its low half (10_state.md R41). -/
theorem capsValue_halves :
    (capsValue.extractLsb' 0 16).toNat = bufBytes ∧ capsValue.extractLsb' 16 16 = 0#16 := by
  obtain ⟨-, hle, -⟩ := bufBytes_bounds
  constructor
  · simp only [capsValue, BitVec.extractLsb'_toNat, BitVec.toNat_ofNat]
    omega
  · apply BitVec.eq_of_toNat_eq
    simp only [capsValue, BitVec.extractLsb'_toNat, BitVec.toNat_ofNat, Nat.shiftRight_eq_div_pow]
    omega

/-- Settles O43: the control registers by their addresses; while BUSY = 1 an address that is none of the six locates
something that reads zero. -/
theorem busyReadsShowOnlyControlRegisters : Obligations.BusyReadsShowOnlyControlRegisters := by
  intro s
  refine ⟨rfl, rfl, rfl, rfl, rfl, rfl, ⟨rfl, capsValue_halves⟩, fun addr hb haligned haddr => ?_⟩
  have hl : locate addr.toNat ∉ [Loc.id, .ctrl, .status, .len, .outlen, .caps] := by
    rw [locate_readable_iff]
    simpa only [List.mem_cons, List.not_mem_nil, BitVec.toNat_eq, BitVec.toNat_ofNat] using haddr
  rw [busRead_of_aligned haligned, readLoc_of_busy hb hl]

/-! ### The words of CTRL and STATUS -/

theorem ctrlWord_fields (s : State) :
    (ctrlWord s).getLsbD 0 = s.irqEn ∧ (ctrlWord s).extractLsb' 1 2 = s.keysize ∧
      (ctrlWord s).extractLsb' 3 29 = 0#29 := by
  simp only [ctrlWord, BitVec.getLsbD_append]
  simp (disch := omega) only [BitVec.extractLsb'_append_eq_of_le, BitVec.extractLsb'_append_eq_of_add_le]
  simp

theorem statusWord_flags (s : State) :
    (statusWord s).getLsbD 0 = s.busy ∧ (statusWord s).getLsbD 1 = s.done ∧ (statusWord s).getLsbD 2 = s.outValid ∧
      (statusWord s).getLsbD 3 = s.cmdOvr ∧ (statusWord s).getLsbD 4 = s.busViol := by
  simp only [statusWord, BitVec.getLsbD_append]
  simp

theorem statusWord_fields (s : State) :
    (statusWord s).extractLsb' 5 3 = 0#3 ∧ (statusWord s).extractLsb' 8 4 = errNumber s.errcode ∧
      (statusWord s).extractLsb' 12 2 = phaseNumber s.phase ∧ (statusWord s).extractLsb' 14 18 = 0#18 := by
  simp only [statusWord]
  simp (disch := omega) only [BitVec.extractLsb'_append_eq_of_le, BitVec.extractLsb'_append_eq_of_add_le]
  simp

/-- Settles O51: the fields from `statusWord_flags` and `statusWord_fields`, the numbers by their lists. -/
theorem statusFieldsInTheirPlaces : Obligations.StatusFieldsInTheirPlaces := by
  refine ⟨fun s => ?_, by decide, by decide⟩
  obtain ⟨hbusy, hdone, houtValid, hcmdOvr, hbusViol⟩ := statusWord_flags s
  exact ⟨hbusy, hdone, houtValid, hcmdOvr, hbusViol, statusWord_fields s⟩

/-! ### Writing LEN and CTRL at rest -/

/-- The merge of a write, bit by bit (20_memory.md R65). -/
theorem getLsbD_mergeLanes (old new : Word) (wstrb : BitVec 4) {b : Nat} (hb : b < 32) :
    (mergeLanes old new wstrb).getLsbD b = if wstrb.getLsbD (b / 8) then new.getLsbD b else old.getLsbD b := by
  have hm : b % 8 < 8 := Nat.mod_lt b (by omega)
  have hbit (x : Word) : (wordByte x (b / 8)).getLsbD (b % 8) = x.getLsbD b := by
    rw [getLsbD_wordByte, decide_eq_true hm, Bool.true_and, Nat.div_add_mod]
  rw [mergeLanes, getLsbD_laneWord _ hb]
  split
  · exact hbit new
  · exact hbit old

/-- KEYSIZE stands in lane 0 (10_state.md R30). -/
theorem extractLsb'_mergeLanes_keysize (old new : Word) (wstrb : BitVec 4) :
    (mergeLanes old new wstrb).extractLsb' 1 2 =
      if wstrb.getLsbD 0 then new.extractLsb' 1 2 else old.extractLsb' 1 2 := by
  refine BitVec.eq_of_getLsbD_eq fun j hj => ?_
  rw [BitVec.getLsbD_extractLsb', getLsbD_mergeLanes _ _ _ (by omega), show (1 + j) / 8 = 0 by omega]
  split <;> rw [BitVec.getLsbD_extractLsb']

theorem abortChain_of_idle {s : State} (h : s.phase = .idle) : abortChain s = s := if_pos h

/-- A chain abort changes PHASE and ACC alone (42_s2v.md R207). -/
theorem abortChain_frame (s : State) :
    abortChain s = { s with phase := (abortChain s).phase, acc := (abortChain s).acc } := by
  unfold abortChain
  split <;> rfl

/-- The lanes of a CTRL write merged into IRQ_EN and KEYSIZE, before any chain abort (20_memory.md R65). -/
def mergeCtrl (w : Word) (wstrb : BitVec 4) (s : State) : State :=
  { s with
    irqEn := if wstrb.getLsbD 0 then w.getLsbD 0 else s.irqEn
    keysize := if wstrb.getLsbD 0 then w.extractLsb' 1 2 else s.keysize }

section WriteCtrl

variable (w : Word) (wstrb : BitVec 4) (s : State)

/-- All that a CTRL write can do. -/
theorem writeCtrl_eq :
    writeCtrl w wstrb s =
      if (mergeCtrl w wstrb s).keysize = s.keysize then mergeCtrl w wstrb s else abortChain (mergeCtrl w wstrb s) := by
  obtain ⟨hirq, hkeysize, -⟩ := ctrlWord_fields s
  unfold writeCtrl
  dsimp only
  rw [getLsbD_mergeLanes _ _ _ (by omega), extractLsb'_mergeLanes_keysize, hirq, hkeysize]
  rfl

theorem writeCtrl_irqEn : (writeCtrl w wstrb s).irqEn = if wstrb.getLsbD 0 then w.getLsbD 0 else s.irqEn := by
  rw [writeCtrl_eq, apply_ite State.irqEn, abortChain_irqEn, ite_self]
  rfl

theorem writeCtrl_keysize :
    (writeCtrl w wstrb s).keysize = if wstrb.getLsbD 0 then w.extractLsb' 1 2 else s.keysize := by
  rw [writeCtrl_eq, apply_ite State.keysize, abortChain_keysize, ite_self]
  rfl

/-- A CTRL write changes IRQ_EN, KEYSIZE and the chain alone. -/
theorem writeCtrl_frame {t : State} (ht : t = writeCtrl w wstrb s) :
    t = { s with irqEn := t.irqEn, keysize := t.keysize, phase := t.phase, acc := t.acc } := by
  rw [writeCtrl_eq] at ht
  split at ht
  · rw [ht]
    rfl
  · rw [ht, abortChain_frame]
    rfl

/-- With no chain open, a CTRL write changes IRQ_EN and KEYSIZE alone. -/
theorem writeCtrl_of_idle (h : s.phase = .idle) : writeCtrl w wstrb s = mergeCtrl w wstrb s := by
  have habort : abortChain (mergeCtrl w wstrb s) = mergeCtrl w wstrb s := abortChain_of_idle h
  rw [writeCtrl_eq, habort, ite_self]

/-- A full write of CTRL reads back with the bits above KEYSIZE zero (10_state.md R30). -/
theorem ctrlWord_writeCtrl_all : ctrlWord (writeCtrl w 0xF#4 s) = w &&& 7#32 := by
  have hirq : (writeCtrl w 0xF#4 s).irqEn = w.getLsbD 0 := writeCtrl_irqEn w 0xF#4 s
  have hkeysize : (writeCtrl w 0xF#4 s).keysize = w.extractLsb' 1 2 := writeCtrl_keysize w 0xF#4 s
  have hmask : ∀ j < 32, (7#32).getLsbD j = decide (j < 3) := by decide
  refine BitVec.eq_of_getLsbD_eq fun j hj => ?_
  rw [ctrlWord, hirq, hkeysize, BitVec.getLsbD_and, hmask j hj]
  simp only [BitVec.getLsbD_append]
  rcases (by omega : j = 0 ∨ j = 1 ∨ j = 2 ∨ 3 ≤ j) with rfl | rfl | rfl | hhigh
  · simp
  · simp
  · simp
  · simp (disch := omega) only [if_neg, decide_eq_false, Bool.and_false, BitVec.getLsbD_zero]

end WriteCtrl

/-- An aligned write at rest, with a CMD strobe that passed (20_memory.md R65). -/
theorem busWrite_of_rest {addr : BitVec 14} {wstrb : BitVec 4} {s : State} (hf : writeFails addr wstrb = false)
    (hb : s.busy = false) (w : Word) : busWrite addr w wstrb s = writeIdle (locate addr.toNat) w wstrb s := by
  rw [busWrite, hf, hb]
  rfl

theorem busWrite_len {s : State} (hb : s.busy = false) (w : Word) (wstrb : BitVec 4) :
    busWrite 0x010#14 w wstrb s = { s with len := mergeLanes s.len w wstrb } :=
  busWrite_of_rest rfl hb w

theorem busWrite_ctrl {s : State} (hb : s.busy = false) (w : Word) (wstrb : BitVec 4) :
    busWrite 0x004#14 w wstrb s = writeCtrl w wstrb s :=
  busWrite_of_rest rfl hb w

/-- Settles O50: LEN by the merge of its lanes, CTRL by the fields of `writeCtrl`. -/
theorem controlRegistersMergeByLane : Obligations.ControlRegistersMergeByLane := by
  intro s w wstrb hb
  rw [busWrite_len hb, busWrite_len hb, busWrite_ctrl hb, busWrite_ctrl hb]
  refine ⟨?_, mergeLanes_all s.len w, ?_, ctrlWord_writeCtrl_all w s, ctrlWord_fields s⟩
  · rintro t rfl
    exact ⟨rfl, fun j hj => wordByte_mergeLanes s.len w wstrb hj⟩
  · rintro t rfl
    refine ⟨writeCtrl_frame w wstrb s rfl, fun hidle => ?_, writeCtrl_irqEn w wstrb s, writeCtrl_keysize w wstrb s⟩
    rw [writeCtrl_of_idle w wstrb s hidle]
    rfl

end Sys2Proof.Machine

/-! The host bus (20_memory.md): the two errors, reads that leave no trace, and the byte-string regions lane by lane
(R62 to R74, R79). -/

namespace Sys2Proof.Machine

/-! ### Transactions -/

theorem transact_of_read {tr : Transaction} (h : tr.kind = .read) (s : State) :
    transact tr s = { s with resp := some (busRead tr.addr s) } := by
  rw [transact, h]

theorem transact_of_write {tr : Transaction} (h : tr.kind = .write) (s : State) :
    transact tr s =
      { busWrite tr.addr tr.wdata tr.wstrb s with
        resp := some { rdata := 0#32, err := writeFails tr.addr tr.wstrb } } := by
  rw [transact, h]

theorem busRead_of_misaligned {addr : BitVec 14} (h : addr.toNat % 4 ≠ 0) (s : State) :
    busRead addr s = { rdata := 0#32, err := true } := by
  rw [busRead, aligned_eq, decide_eq_false h]
  rfl

/-- Only CMD asks for a whole strobe (20_memory.md R66). -/
theorem writeFails_of_aligned {addr : BitVec 14} (h : addr.toNat % 4 = 0) {wstrb : BitVec 4}
    (hcmd : addr.toNat = 0x008 → wstrb = 0xF#4) : writeFails addr wstrb = false := by
  rw [Bool.eq_false_iff, ne_eq, writeFails_iff]
  rintro (hmis | ⟨haddr, hstrb⟩)
  · exact hmis h
  · exact hstrb (hcmd haddr)

/-- Settles O41: a read fails by `busRead_of_misaligned` alone, a write by `writeFails_iff`, and a failing write is
`busWrite_of_fails`. -/
theorem busErrorsExactlyTwo : Obligations.BusErrorsExactlyTwo := by
  intro s tr
  cases hk : tr.kind with
  | read =>
    rw [transact_of_read hk]
    refine ⟨_, rfl, ?_⟩
    by_cases h4 : tr.addr.toNat % 4 = 0
    · simp [busRead_of_aligned h4, h4]
    · simp [busRead_of_misaligned h4, h4]
  | write =>
    rw [transact_of_write hk]
    refine ⟨_, rfl, ?_, fun hf => ⟨rfl, ?_⟩⟩
    · simp only [writeFails_iff, BitVec.toNat_eq, BitVec.toNat_ofNat, true_and]
    · rw [busWrite_of_fails hf]

/-- Settles O42: the step of a read moves the schedule and the response alone, and no read looks at either. -/
theorem readsHaveNoSideEffect : Obligations.ReadsHaveNoSideEffect := by
  intro s addr w wstrb rest hev
  have hread (r : Option BusResponse) : busRead addr { s with events := rest, resp := r } = busRead addr s := rfl
  refine ⟨{ s with events := rest, resp := some (busRead addr s) }, ?_, rfl, rfl, hread _⟩
  rw [step, hev]
  rfl

/-! ### Writes while a command is in flight -/

theorem busWrite_of_busy {addr : BitVec 14} {wstrb : BitVec 4} {s : State} (hf : writeFails addr wstrb = false)
    (hb : s.busy = true) (w : Word) : busWrite addr w wstrb s = writeBusy (locate addr.toNat) w wstrb s := by
  rw [busWrite, hf, hb]
  rfl

/-- A write that is neither to CMD nor to STATUS only raises BUS_VIOL (20_memory.md R71). -/
theorem writeBusy_other {l : Loc} (hcmd : l ≠ .cmd) (hstatus : l ≠ .status) (w : Word) (wstrb : BitVec 4)
    (s : State) : writeBusy l w wstrb s = { s with busViol := true } := by
  rcases writeBusy_cases l w wstrb s with ⟨hl, -⟩ | ⟨hl, -⟩ | ⟨-, -, he⟩
  · exact absurd hl hcmd
  · exact absurd hl hstatus
  · exact he

/-- A full STATUS write clears the W1C bits written as 1 (10_state.md R31). -/
theorem clearStatus_all (w : Word) (s : State) :
    clearStatus w 0xF#4 s =
      { s with
        done := s.done && !w.getLsbD 1
        cmdOvr := s.cmdOvr && !w.getLsbD 3
        busViol := s.busViol && !w.getLsbD 4 } := by
  rw [clearStatus, mergeLanes_all]

/-- STATUS is written alike at rest and while a command is in flight. -/
theorem busWrite_status (w : Word) (wstrb : BitVec 4) (s : State) :
    busWrite 0x00C#14 w wstrb s = clearStatus w wstrb s := by
  have hf : writeFails 0x00C#14 wstrb = false := rfl
  cases hb : s.busy
  · exact busWrite_of_rest hf hb w
  · exact busWrite_of_busy hf hb w

/-- Settles O44: CMD, STATUS (`busWrite_status`) and every other address (`writeBusy_other`). -/
theorem busyWritesAreIgnored : Obligations.BusyWritesAreIgnored := by
  intro s addr w wstrb hb h4
  refine ⟨?_, ?_, fun hcmd hstatus => ?_, fun hstrb => ⟨_, rfl, ?_⟩⟩
  · rintro rfl rfl
    exact busWrite_of_busy rfl hb w
  · rintro rfl
    simp only [busWrite_status]
    refine ⟨?_, ?_⟩
    · rw [clearStatus, clearStatus, ← hb]
    · rintro rfl
      exact clearStatus_all w s
  · rw [ne_eq, BitVec.toNat_eq] at hcmd hstatus
    rw [busWrite_of_busy (writeFails_of_aligned h4 fun e => absurd e hcmd) hb]
    exact writeBusy_other (mt (locate_cmd_iff _).1 hcmd) (mt (locate_status_iff _).1 hstatus) w wstrb s
  · exact writeFails_of_aligned h4 fun e => hstrb (BitVec.eq_of_toNat_eq e)

/-- All that the host can move while a command is in flight: the W1C bits and the response (20_memory.md R71). -/
def OnlyW1cMoved (s t : State) : Prop :=
  ∃ d c v r, t = { s with done := d, cmdOvr := c, busViol := v, resp := r }

theorem OnlyW1cMoved.refl (s : State) : OnlyW1cMoved s s := ⟨_, _, _, _, rfl⟩

theorem OnlyW1cMoved.trans {s t u : State} (h : OnlyW1cMoved s t) (h' : OnlyW1cMoved t u) : OnlyW1cMoved s u := by
  obtain ⟨_, _, _, _, rfl⟩ := h
  obtain ⟨d, c, v, r, rfl⟩ := h'
  exact ⟨d, c, v, r, rfl⟩

theorem OnlyW1cMoved.busy_eq {s t : State} (h : OnlyW1cMoved s t) : t.busy = s.busy := by
  obtain ⟨_, _, _, _, rfl⟩ := h
  rfl

theorem onlyW1cMoved_writeBusy (l : Loc) (w : Word) (wstrb : BitVec 4) (s : State) :
    OnlyW1cMoved s (writeBusy l w wstrb s) := by
  rcases writeBusy_cases l w wstrb s with ⟨-, he⟩ | ⟨-, he⟩ | ⟨-, -, he⟩ <;> rw [he] <;> exact ⟨_, _, _, _, rfl⟩

theorem onlyW1cMoved_busWrite {s : State} (hb : s.busy = true) (addr : BitVec 14) (w : Word) (wstrb : BitVec 4) :
    OnlyW1cMoved s (busWrite addr w wstrb s) := by
  rcases busWrite_cases addr w wstrb s with ⟨-, he⟩ | ⟨-, -, he⟩ | ⟨-, hrest, -⟩
  · rw [he]
    exact .refl s
  · rw [he]
    exact onlyW1cMoved_writeBusy _ w wstrb s
  · exact absurd hb (by simp [hrest])

theorem onlyW1cMoved_transact {s : State} (hb : s.busy = true) (tr : Transaction) :
    OnlyW1cMoved s (transact tr s) := by
  cases hk : tr.kind with
  | read =>
    rw [transact_of_read hk]
    exact ⟨_, _, _, _, rfl⟩
  | write =>
    rw [transact_of_write hk]
    exact (onlyW1cMoved_busWrite hb tr.addr tr.wdata tr.wstrb).trans ⟨_, _, _, _, rfl⟩

theorem onlyW1cMoved_transactions {s : State} (hb : s.busy = true) (trs : List Transaction) :
    OnlyW1cMoved s (trs.foldl (fun u tr => transact tr u) s) := by
  induction trs generalizing s with
  | nil => exact .refl s
  | cons tr trs ih =>
    have hone : OnlyW1cMoved s (transact tr s) := onlyW1cMoved_transact hb tr
    exact hone.trans (ih (hone.busy_eq.trans hb))

/-- Settles O45: by induction on the transactions, only the W1C bits and the response move. -/
theorem operandsHoldFromIssueToCompletion : Obligations.OperandsHoldFromIssueToCompletion := by
  rintro s t trs hb rfl
  obtain ⟨d, c, v, r, he⟩ := onlyW1cMoved_transactions hb trs
  rw [he]
  exact ⟨hb, rfl, rfl, rfl, rfl, rfl, rfl, rfl, rfl, rfl, rfl, rfl, rfl, rfl, rfl⟩

/-! ### KEY, read-only and reserved addresses -/

/-- No location shows KEY (20_memory.md R72). -/
theorem readLoc_of_key (l : Loc) (s : State) (k : Vector Byte 64) : readLoc l { s with key := k } = readLoc l s := by
  cases l <;> rfl

/-- Settles O46: no location shows KEY, and the KEY region reads as zero. -/
theorem keyIsNeverReadable : Obligations.KeyIsNeverReadable := by
  refine ⟨fun s k addr => ?_, fun s addr h4 lo hi => ?_⟩
  · rw [busRead, busRead, readLoc_of_key]
  · rw [busRead_of_aligned h4, locate_key lo hi]
    rfl

/-- The locations that ignore a write at rest (20_memory.md R67, R73). -/
def Loc.readOnly : Loc → Bool
  | .id | .outlen | .caps | .result _ | .acc _ | .obuf _ | .reserved => true
  | .ctrl | .cmd | .status | .len | .key _ | .iv _ | .ibuf _ => false

theorem writeIdle_of_readOnly {l : Loc} (h : l.readOnly = true) (w : Word) (wstrb : BitVec 4) (s : State) :
    writeIdle l w wstrb s = s := by
  cases l with
  | id | outlen | caps | result | acc | obuf | reserved => rfl
  | ctrl | cmd | status | len | key | iv | ibuf => cases h

/-- The gap between ACC and the windows (20_memory.md R63). -/
theorem locate_gap {a : Nat} (lo : 0x090 ≤ a) (hi : a < 0x1000) : locate a = .reserved := by
  simp (disch := omega) only [locate_of_not_control, if_pos, if_neg]

/-- Between IV and the IBUF window nothing is writable (20_memory.md R63). -/
theorem readOnly_locate_between {a : Nat} (lo : 0x070 ≤ a) (hi : a < 0x1000) : (locate a).readOnly = true := by
  rcases (by omega : a < 0x080 ∨ (0x080 ≤ a ∧ a < 0x090) ∨ 0x090 ≤ a) with h | ⟨h, h'⟩ | h
  · rw [locate_result lo h]
    rfl
  · rw [locate_acc h h']
    rfl
  · rw [locate_gap h hi]
    rfl

/-- Settles O47: the four control addresses by their values, the rest by their regions. -/
theorem readOnlyAndReservedAddresses : Obligations.ReadOnlyAndReservedAddresses := by
  intro s addr w wstrb h4
  refine ⟨fun haddr => ?_, fun haddr => ?_⟩
  · have hloc : (locate addr.toNat).readOnly = true := by
      rcases haddr with hmem | ⟨lo, hi⟩ | lo
      · simp only [List.mem_cons, List.not_mem_nil, or_false] at hmem
        rcases hmem with rfl | rfl | rfl | rfl <;> rfl
      · exact readOnly_locate_between lo hi
      · rw [locate_obuf lo addr.isLt]
        rfl
    have hf : writeFails addr wstrb = false := by
      refine writeFails_of_aligned h4 fun hcmd => ?_
      rw [hcmd] at hloc
      cases hloc
    refine ⟨hf, fun hb => ?_⟩
    rw [busWrite_of_rest hf hb, writeIdle_of_readOnly hloc]
  · have hloc : locate addr.toNat = .reserved := by
      rcases haddr with rfl | ⟨lo, hi⟩
      · rfl
      · exact locate_gap lo hi
    rw [busRead_of_aligned h4, hloc]
    rfl

/-! ### The byte-string regions -/

/-- A read at an aligned offset of the window. -/
theorem busRead_ofNat {n : Nat} (hn : n < 0x4000) (h4 : n % 4 = 0) (s : State) :
    busRead (BitVec.ofNat 14 n) s = { rdata := readLoc (locate n) s, err := false } := by
  have haddr : (BitVec.ofNat 14 n).toNat = n := Nat.mod_eq_of_lt hn
  rw [busRead_of_aligned (by rwa [haddr]), haddr]

/-- A write at rest at an aligned offset past the control registers. -/
theorem busWrite_ofNat {n : Nat} (lo : 0x020 ≤ n) (hn : n < 0x4000) (h4 : n % 4 = 0) {s : State}
    (hb : s.busy = false) (w : Word) (wstrb : BitVec 4) :
    busWrite (BitVec.ofNat 14 n) w wstrb s = writeIdle (locate n) w wstrb s := by
  have haddr : (BitVec.ofNat 14 n).toNat = n := Nat.mod_eq_of_lt hn
  rw [busWrite_of_rest (writeFails_of_aligned (by rwa [haddr]) (by omega)) hb, haddr]

/-- At rest, lane `j` of a word of a byte-string region is that byte. -/
theorem wordByte_hiddenWhileBusy {s : State} (hb : s.busy = false) (f : Nat → Byte) {j : Nat} (hj : j < 4) :
    wordByte (hiddenWhileBusy s (laneWord f)) j = f j := by
  rw [hiddenWhileBusy, hb]
  exact wordByte_laneWord f hj

/-- Settles O48: each of the five regions is the lane word of its bytes. -/
theorem byteRegionsReadByLanes : Obligations.ByteRegionsReadByLanes := by
  intro s k j hb hj
  refine ⟨fun hk => ⟨?_, ?_, ?_⟩, fun hk => ?_, fun hk => ?_⟩
  all_goals
    simp (disch := omega) only [busRead_ofNat, locate_iv, locate_result, locate_acc, locate_ibuf, locate_obuf,
      Nat.add_sub_cancel_left]
    exact wordByte_hiddenWhileBusy hb _ hj

/-- A KEY byte after a byte write. -/
theorem getD_keySet (k : Vector Byte 64) (i : Nat) (b : Byte) {a : Nat} (ha : a < 64) :
    (keySet k i b).toList.getD a 0#8 = if a = i then b else k.toList.getD a 0#8 := by
  have hset : (keySet k i b).toList = k.toList.set i b := Vector.toList_setIfInBounds ..
  have hlen : a < k.toList.length := by simpa using ha
  rw [hset, List.getD_eq_getElem _ _ (by simpa using ha), List.getElem_set, List.getD_eq_getElem _ _ hlen]
  simp only [eq_comm]

/-- KEY after a write of word `k`. -/
theorem getD_writeLanes_keySet (key : Vector Byte 64) (k : Nat) (w : Word) (wstrb : BitVec 4) {i : Nat} (hi : i < 64) :
    (writeLanes keySet (4 * k) w wstrb key).toList.getD i 0#8 =
      if i / 4 = k ∧ wstrb.getLsbD (i % 4) then wordByte w (i % 4) else key.toList.getD i 0#8 :=
  get_writeLanes (P := fun _ => True) (get := fun key i => key.toList.getD i 0#8) (fun _ _ _ h => h)
    (fun key j b _ => getD_keySet key j b hi) k w wstrb trivial

/-- A byte write into a block that ignores an offset past its end, as `get_writeLanes` asks of a region. -/
def setBlockByteInBounds (x : Block) (i : Nat) (b : Byte) : Block := if i < 16 then setBlockByte x i b else x

theorem blockByte_setBlockByteInBounds (x : Block) (i : Nat) (b : Byte) {a : Nat} (ha : a < 16) :
    blockByte (setBlockByteInBounds x i b) a = if a = i then b else blockByte x a := by
  unfold setBlockByteInBounds
  split
  · next hi => exact blockByte_setBlockByte x hi b ha
  · next hi => rw [if_neg (by omega)]

/-- A word inside a block never writes past its end. -/
theorem writeLanes_setBlockByte (x : Block) {k : Nat} (hk : k < 4) (w : Word) (wstrb : BitVec 4) :
    writeLanes setBlockByte (4 * k) w wstrb x = writeLanes setBlockByteInBounds (4 * k) w wstrb x := by
  have hin (j : Nat) (hj : j < 4) (y : Block) (b : Byte) :
      setBlockByteInBounds y (4 * k + j) b = setBlockByte y (4 * k + j) b := if_pos (by omega)
  simp only [writeLanes, List.foldl_cons, List.foldl_nil, hin 0, hin 1, hin 2, hin 3, Nat.reduceLT]

/-- IV after a write of word `k`. -/
theorem blockByte_writeLanes (x : Block) {k : Nat} (hk : k < 4) (w : Word) (wstrb : BitVec 4) {i : Nat} (hi : i < 16) :
    blockByte (writeLanes setBlockByte (4 * k) w wstrb x) i =
      if i / 4 = k ∧ wstrb.getLsbD (i % 4) then wordByte w (i % 4) else blockByte x i := by
  rw [writeLanes_setBlockByte x hk]
  exact get_writeLanes (P := fun _ => True) (fun _ _ _ h => h)
    (fun y j b _ => blockByte_setBlockByteInBounds y j b hi) k w wstrb trivial

/-- The tail of the IBUF window ignores a write (20_memory.md R74). -/
theorem read_writeLanes_ibufSet_tail {m : Memory} (h : Memory.wf m = true) (base : Nat) (w : Word) (wstrb : BitVec 4)
    {a : Nat} (ha : bufBytes ≤ a) : Memory.read (writeLanes ibufSet base w wstrb m) a = Memory.read m a := by
  refine (writeLanes_keeps (P := fun m' => Memory.wf m' = true ∧ Memory.read m' a = Memory.read m a)
    (fun m' i b hm' => ?_) base w wstrb ⟨h, rfl⟩).2
  obtain ⟨hwf, hread⟩ := hm'
  rw [read_ibufSet hwf, if_neg (by omega)]
  exact ⟨wf_ibufSet i b hwf, hread⟩

/-- IBUF after a write of word `k` of its window. -/
theorem read_writeLanes_ibufSet {m : Memory} (h : Memory.wf m = true) (k : Nat) (w : Word) (wstrb : BitVec 4) (a : Nat) :
    Memory.read (writeLanes ibufSet (4 * k) w wstrb m) a =
      if a / 4 = k ∧ wstrb.getLsbD (a % 4) ∧ a < bufBytes then wordByte w (a % 4) else Memory.read m a := by
  by_cases ha : a < bufBytes
  · have hset (m' : Memory) (i : Nat) (b : Byte) (hm' : Memory.wf m' = true) :
        Memory.read (ibufSet m' i b) a = if a = i then b else Memory.read m' a := by
      rw [read_ibufSet hm']
      refine if_congr ?_ rfl rfl
      omega
    rw [get_writeLanes (get := Memory.read) (P := fun m' => Memory.wf m' = true) (fun _ => wf_ibufSet) hset k w wstrb h]
    simp only [ha, and_true]
  · rw [read_writeLanes_ibufSet_tail h _ w wstrb (by omega), if_neg (by simp [ha])]

/-- A KEY write changes KEY and the chain alone. -/
theorem writeKey_frame (i : Nat) (w : Word) (wstrb : BitVec 4) (s : State) {t : State}
    (ht : t = writeKey i w wstrb s) : t = { s with key := t.key, phase := t.phase, acc := t.acc } := by
  unfold writeKey at ht
  dsimp only at ht
  split at ht
  · rw [ht]
  · rw [ht, abortChain_frame]

/-- With no chain open, a KEY write changes KEY alone. -/
theorem writeKey_of_idle (i : Nat) (w : Word) (wstrb : BitVec 4) {s : State} (h : s.phase = .idle) :
    writeKey i w wstrb s = { s with key := writeLanes keySet i w wstrb s.key } := by
  have habort : abortChain { s with key := writeLanes keySet i w wstrb s.key } = _ := abortChain_of_idle h
  unfold writeKey
  dsimp only
  rw [habort, ite_self]

theorem writeKey_key (i : Nat) (w : Word) (wstrb : BitVec 4) (s : State) :
    (writeKey i w wstrb s).key = writeLanes keySet i w wstrb s.key := by
  unfold writeKey
  dsimp only
  rw [apply_ite State.key, abortChain_key, ite_self]

/-- Settles O49: `get_writeLanes` for each of the three regions, and the frame of each write. -/
theorem byteRegionsWriteByLanes : Obligations.ByteRegionsWriteByLanes := by
  intro s k w wstrb hb
  refine ⟨fun hk => ?_, fun hk => ?_, fun hk hwf => ?_⟩ <;>
    rw [busWrite_ofNat (by omega) (by omega) (by omega) hb]
  · rw [locate_key (by omega) (by omega), Nat.add_sub_cancel_left]
    have hkey : writeIdle (.key (4 * k)) w wstrb s = writeKey (4 * k) w wstrb s := rfl
    rw [hkey]
    refine ⟨writeKey_frame _ w wstrb s rfl, fun hidle => ?_, fun i hi => ?_⟩
    · rw [writeKey_of_idle _ w wstrb hidle]
    · rw [writeKey_key, getD_writeLanes_keySet s.key k w wstrb hi]
  · rw [locate_iv (by omega) (by omega), Nat.add_sub_cancel_left]
    exact ⟨rfl, fun i hi => blockByte_writeLanes s.iv hk w wstrb hi⟩
  · rw [locate_ibuf (by omega) (by omega), Nat.add_sub_cancel_left]
    exact ⟨rfl, read_writeLanes_ibufSet hwf k w wstrb⟩

end Sys2Proof.Machine

/-! Encoding (30_encoding.md): decoding undoes encoding and nothing else decodes (R100 to R102), no step stops (R101),
and what the commands write and read (R103, R104). -/

namespace Sys2Proof

/-! ### Decoding and encoding -/

theorem decodeOp_opcode (i : Instr) : decodeOp (opcode i).toNat = .ok i := by cases i <;> rfl

/-- Each row of the opcode map (30_encoding.md R102) is the opcode of the command it names. -/
theorem eq_opcode_of_decodeOp {op : Nat} {i : Instr} (h : decodeOp op = .ok i) : op = (opcode i).toNat := by
  unfold decodeOp at h
  split at h <;> cases h <;> rfl

theorem toNat_encode (i : Instr) : (encode i).toNat = (opcode i).toNat := by
  rw [encode, BitVec.toNat_append, BitVec.toNat_ofNat, Nat.zero_mod, Nat.zero_shiftLeft, Nat.zero_or]

/-- A word decodes to a command exactly when its value is that command's opcode. -/
theorem decode_eq_ok_iff (w : Word) (i : Instr) : decode w = .ok i ↔ w.toNat = (opcode i).toNat := by
  have hlt : (opcode i).toNat < 16 := (opcode i).isLt
  rw [decode_eq]
  constructor
  · intro h
    split at h
    · cases h
    · exact eq_opcode_of_decodeOp h
  · intro h
    rw [if_neg (by omega), h, decodeOp_opcode]

/-- Settles O2: both sides say that the word's value is the opcode. -/
theorem decodeIffEncode : Obligations.DecodeIffEncode := by
  intro w i
  rw [decode_eq_ok_iff, BitVec.toNat_eq, toNat_encode]

/-- Settles O1: the fixed words, evaluated. -/
theorem opcodeMapDecodes : Obligations.OpcodeMapDecodes :=
  ⟨by decide, by decide, by decide⟩

end Sys2Proof

namespace Sys2Proof.Machine

/-! ### Every step answers a next state -/

theorem exists_next_completion (s : State) : ∃ t, completion s = .next t := by
  rcases completion_cases s with ⟨i, -, -, he⟩ | ⟨-, he⟩ <;> exact ⟨_, he⟩

/-- Between commands the ENGINE does nothing (40_control.md R130). -/
theorem engineTurn_of_rest {s : State} (hb : s.busy = false) : engineTurn s = .next s := by
  simp only [engineTurn, hb, Bool.false_eq_true, if_false]

theorem exists_next_engineTurn (s : State) : ∃ t, engineTurn s = .next t := by
  unfold engineTurn
  split
  · exact exists_next_completion s
  · exact ⟨s, rfl⟩

theorem step_of_no_event {s : State} (h : s.events = []) : step s = engineTurn s := by
  simp only [step, h]

theorem step_of_engine {s : State} {rest : List Event} (h : s.events = .engine :: rest) :
    step s = engineTurn { s with events := rest } := by
  simp only [step, h]

theorem exists_next_step (s : State) : ∃ t, step s = .next t := by
  unfold step
  split
  · exact exists_next_engineTurn s
  · exact ⟨_, rfl⟩
  · exact exists_next_engineTurn _
  · exact ⟨_, rfl⟩

/-- Settles O8: HOST and RESET always answer, and the ENGINE's turn does because a completion does
(`exists_next_engineTurn`); at rest that turn is no step (`engineTurn_of_rest`). -/
theorem nothingStopsAndRestHolds : Obligations.NothingStopsAndRestHolds := by
  refine fun s => ⟨exists_next_step s, fun hb => ⟨fun rest h => ?_, fun h => ?_⟩⟩
  · rw [step_of_engine h]
    exact engineTurn_of_rest hb
  · rw [step_of_no_event h]
    exact engineTurn_of_rest hb

/-! ### What the commands write (30_encoding.md R103) -/

/-- The state a command answers: its effect or its error code, at the end of the lifecycle. -/
theorem eq_of_exec {i : Instr} {s t : State} (h : exec i s = .next t) :
    t = finish (effectOf i s) ∨ t = finish (takeError (check i s) s) := by
  rcases exec_cases i s with ⟨-, he⟩ | ⟨-, he⟩ <;> rw [he] at h <;> cases h
  · exact .inl rfl
  · exact .inr rfl

theorem s2vNonceEffect_updates (enc : BlockCipher) (s : State) :
    ∃ d p, s2vNonceEffect enc s = { s with acc := d, phase := p } := by
  unfold s2vNonceEffect
  split <;> exact ⟨_, _, rfl⟩

theorem sivDecEffect_updates (enc : BlockCipher) (s : State) :
    ∃ e r o n v, sivDecEffect enc s =
      { s with errcode := e, phase := .idle, acc := 0#128, result := r, obuf := o, outlen := n, outValid := v } := by
  unfold sivDecEffect
  dsimp only
  split <;> exact ⟨_, _, _, _, _, rfl⟩

/-- All the elements that the effect of a command other than ZEROIZE can write. -/
theorem effectOf_updates {i : Instr} (hi : i ≠ .zeroize) (s : State) :
    ∃ e p d r o n v, effectOf i s =
      { s with errcode := e, phase := p, acc := d, result := r, obuf := o, outlen := n, outValid := v } := by
  cases i with
  | nop | cmac | s2vInit | s2vAd | s2vFinal | ctr | sivEnc | dbl | xor | pad | mask =>
    exact ⟨_, _, _, _, _, _, _, rfl⟩
  | s2vNonce =>
    obtain ⟨d, p, he⟩ := s2vNonceEffect_updates Config.aesEnc s
    exact ⟨_, p, d, _, _, _, _, he⟩
  | sivDec =>
    obtain ⟨e, r, o, n, v, he⟩ := sivDecEffect_updates Config.aesEnc s
    exact ⟨e, _, _, r, o, n, v, he⟩
  | zeroize => exact absurd rfl hi

/-- No command's effect writes CTRL, the sticky bits, PENDING or the fields of the model's own. -/
theorem effectOf_control (i : Instr) (s : State) :
    (effectOf i s).irqEn = s.irqEn ∧ (effectOf i s).keysize = s.keysize ∧ (effectOf i s).cmdOvr = s.cmdOvr ∧
      (effectOf i s).busViol = s.busViol ∧ (effectOf i s).pending = s.pending ∧ (effectOf i s).events = s.events ∧
      (effectOf i s).resp = s.resp := by
  by_cases hi : i = .zeroize
  · subst hi
    exact ⟨rfl, rfl, rfl, rfl, rfl, rfl, rfl⟩
  · obtain ⟨e, p, d, r, o, n, v, he⟩ := effectOf_updates hi s
    rw [he]
    exact ⟨rfl, rfl, rfl, rfl, rfl, rfl, rfl⟩

/-- Only ZEROIZE writes an operand. -/
theorem effectOf_operands {i : Instr} (hi : i ≠ .zeroize) (s : State) :
    (effectOf i s).key = s.key ∧ (effectOf i s).iv = s.iv ∧ (effectOf i s).len = s.len ∧
      (effectOf i s).ibuf = s.ibuf := by
  obtain ⟨e, p, d, r, o, n, v, he⟩ := effectOf_updates hi s
  rw [he]
  exact ⟨rfl, rfl, rfl, rfl⟩

/-- Only CTR, SIV_ENC and SIV_DEC release output; of the others ZEROIZE alone writes OUTLEN and OBUF. -/
theorem effectOf_output {i : Instr} (hi : i ∉ [Instr.ctr, .sivEnc, .sivDec]) (s : State) :
    (effectOf i s).outValid = s.outValid ∧
      (i ≠ .zeroize → (effectOf i s).outlen = s.outlen ∧ (effectOf i s).obuf = s.obuf) := by
  cases i with
  | nop | cmac | s2vInit | s2vAd | s2vFinal | dbl | xor | pad | mask => exact ⟨rfl, fun _ => ⟨rfl, rfl⟩⟩
  | s2vNonce =>
    obtain ⟨d, p, he⟩ := s2vNonceEffect_updates Config.aesEnc s
    rw [effectOf, he]
    exact ⟨rfl, fun _ => ⟨rfl, rfl⟩⟩
  | zeroize => exact ⟨rfl, fun h => absurd rfl h⟩
  | ctr | sivEnc | sivDec => exact absurd hi (by decide)

/-- The commands outside the chain leave it as it is. -/
theorem effectOf_chain {i : Instr} (hi : i ∈ [Instr.nop, .cmac, .ctr, .dbl, .xor, .pad, .mask]) (s : State) :
    (effectOf i s).acc = s.acc ∧ (effectOf i s).phase = s.phase := by
  cases i with
  | nop | cmac | ctr | dbl | xor | pad | mask => exact ⟨rfl, rfl⟩
  | s2vInit | s2vAd | s2vNonce | s2vFinal | sivEnc | sivDec | zeroize => exact absurd hi (by decide)

/-- The commands whose result is not in RESULT leave it as it is. -/
theorem effectOf_result {i : Instr} (hi : i ∈ [Instr.nop, .s2vInit, .s2vAd, .s2vNonce, .ctr]) (s : State) :
    (effectOf i s).result = s.result := by
  cases i with
  | nop | s2vInit | s2vAd | ctr => rfl
  | s2vNonce =>
    obtain ⟨d, p, he⟩ := s2vNonceEffect_updates Config.aesEnc s
    rw [effectOf, he]
  | cmac | s2vFinal | sivEnc | sivDec | dbl | xor | pad | mask | zeroize => exact absurd hi (by decide)

/-- Settles O23: the frame of the effect, part by part; an error code is outside every part. -/
theorem commandsWriteOnlyTheirOutputs : Obligations.CommandsWriteOnlyTheirOutputs := by
  intro i s t h
  rcases eq_of_exec h with rfl | rfl
  · obtain ⟨hirq, hsize, hovr, hviol, hpend, hev, hresp⟩ := effectOf_control i s
    refine ⟨hirq, hsize, hovr, hviol, hpend, hev, hresp, fun hz => ?_, fun ho => ?_, fun hc => effectOf_chain hc s,
      fun hr => effectOf_result hr s⟩
    · obtain ⟨hkey, hiv, hlen, hibuf⟩ := effectOf_operands hz s
      exact ⟨hkey, hiv, hlen, fun a => congrArg (Memory.read · a) hibuf⟩
    · obtain ⟨hvalid, hrest⟩ := effectOf_output ho s
      refine ⟨hvalid, fun hz => ?_⟩
      obtain ⟨houtlen, hobuf⟩ := hrest hz
      exact ⟨houtlen, fun a => congrArg (Memory.read · a) hobuf⟩
  · exact ⟨rfl, rfl, rfl, rfl, rfl, rfl, rfl, fun _ => ⟨rfl, rfl, rfl, fun _ => rfl⟩,
      fun _ => ⟨rfl, fun _ => ⟨rfl, fun _ => rfl⟩⟩, fun _ => ⟨rfl, rfl⟩, fun _ => rfl⟩

/-! ### What the commands read of IBUF (30_encoding.md R104) -/

section ReadsBelowLen

variable {s : State} {m : Memory} (hm : ∀ a < s.len.toNat, Memory.read m a = Memory.read s.ibuf a)
include hm

/-- A slice within LEN is the same from both IBUFs. -/
theorem ibufSlice_of_agree (a : Nat) {b : Nat} (hb : b ≤ s.len.toNat) :
    ibufSlice { s with ibuf := m } a b = ibufSlice s a b :=
  readBytes_congr fun _ _ => hm _ (by omega)

/-- XOR passes its check only with LEN = 16, so the block it reads lies below LEN (41_cmac.md R168). -/
theorem inputBlock_of_agree (hc : check .xor s = .noError) : inputBlock { s with ibuf := m } = inputBlock s := by
  have hlen : 16 ≤ s.len.toNat := by
    rw [check_xor] at hc
    split at hc
    · omega
    · cases hc
  rw [inputBlock, ibufSlice_of_agree hm 0 hlen, inputBlock]

/-- The SIV that SIV_DEC reads lies below LEN, or the command is MALFORMED (43_siv.md R236). -/
theorem receivedSiv_of_agree (hlen : 16 ≤ s.len.toNat) : receivedSiv { s with ibuf := m } = receivedSiv s := by
  rw [receivedSiv, ibufSlice_of_agree hm 0 hlen, receivedSiv]

theorem candidatePlaintext_of_agree (enc : BlockCipher) (hlen : 16 ≤ s.len.toNat) :
    candidatePlaintext enc { s with ibuf := m } = candidatePlaintext enc s := by
  have hct : ibufSlice { s with ibuf := m } 16 (inputLen { s with ibuf := m }) = ibufSlice s 16 (inputLen s) :=
    ibufSlice_of_agree hm 16 le_rfl
  rw [candidatePlaintext, hct, receivedSiv_of_agree hm hlen]
  rfl

theorem sivDecEffect_of_agree (enc : BlockCipher) (hc : check .sivDec s = .noError) :
    sivDecEffect enc { s with ibuf := m } = { sivDecEffect enc s with ibuf := m } := by
  have hlen : 16 ≤ s.len.toNat := by
    obtain ⟨-, -, -, hmal⟩ := (check_noError_iff .sivDec s).1 hc
    exact Nat.not_lt.1 (of_decide_eq_false hmal)
  have hp : candidatePlaintext enc { s with ibuf := m } = candidatePlaintext enc s :=
    candidatePlaintext_of_agree hm enc hlen
  have hv' : recomputedSiv enc { s with ibuf := m } = recomputedSiv enc s := by
    rw [recomputedSiv, hp]
    rfl
  unfold sivDecEffect
  rw [receivedSiv_of_agree hm hlen, hp, hv']
  dsimp only
  split <;> rfl

/-- A command that passes its check reads no byte of IBUF at LEN or beyond. -/
theorem effectOf_of_agree {i : Instr} (hi : i ≠ .zeroize) (hc : check i s = .noError) :
    effectOf i { s with ibuf := m } = { effectOf i s with ibuf := m } := by
  have hin : inputBytes { s with ibuf := m } = inputBytes s := inputBytes_congr rfl hm
  cases i with
  | nop | s2vInit | dbl | mask => rfl
  | cmac => rw [effectOf, cmacEffect, hin]; rfl
  | s2vAd => rw [effectOf, s2vAdEffect, hin]; rfl
  | s2vNonce =>
    rw [effectOf, s2vNonceEffect, s2vNonceEffect, hin]
    have hlen : inputLen { s with ibuf := m } = inputLen s := rfl
    rw [hlen]
    split <;> rfl
  | s2vFinal => rw [effectOf, s2vFinalEffect, hin]; rfl
  | ctr => rw [effectOf, ctrEffect, hin]; rfl
  | sivEnc => rw [effectOf, sivEncEffect, hin]; rfl
  | sivDec => exact sivDecEffect_of_agree hm Config.aesEnc hc
  | xor => rw [effectOf, xorEffect, inputBlock_of_agree hm hc]; rfl
  | pad => rw [effectOf, padEffect, hin]; rfl
  | zeroize => exact absurd rfl hi

end ReadsBelowLen

/-- Settles O25: the check does not read IBUF (`check_congr`), an error leaves it, and an effect reads it below LEN only
(`effectOf_of_agree`). -/
theorem ibufBeyondLenIsNeverRead : Obligations.IbufBeyondLenIsNeverRead := by
  intro i s t m h hm
  have hcheck : check i { s with ibuf := m } = check i s := check_congr i rfl rfl rfl
  by_cases hi : i = .zeroize
  · subst hi
    cases h
    rfl
  · rw [if_neg hi]
    rcases exec_cases i s with ⟨hc, he⟩ | ⟨hc, he⟩ <;> rw [he] at h <;> cases h
    · rw [exec_of_noError (hcheck.trans hc), effectOf_of_agree hm hi hc]
      rfl
    · rw [exec_of_error hcheck hc]
      rfl

end Sys2Proof.Machine

/-! Control (40_control.md): issue (R131) and completion (R132, R133), the error outcome (R135), the key halves (R134),
and the two control commands (R136, R137). -/

namespace Sys2Proof.Machine

/-! ### The ENGINE's turn -/

/-- With a command in flight the ENGINE's turn is the completion step (40_control.md R133). -/
theorem engineTurn_of_busy {s : State} (hb : s.busy = true) : engineTurn s = completion s := if_pos hb

theorem step_of_no_event_busy {s : State} (hb : s.busy = true) (h : s.events = []) : step s = completion s := by
  rw [step_of_no_event h, engineTurn_of_busy hb]

theorem step_of_engine_busy {s : State} {rest : List Event} (hb : s.busy = true) (h : s.events = .engine :: rest) :
    step s = completion { s with events := rest } := by
  rw [step_of_engine h]
  exact engineTurn_of_busy hb

theorem completion_of_decode {s : State} {i : Instr} (hd : decode s.pending = .ok i) : completion s = exec i s := by
  rw [completion, hd]

theorem decode_encode (i : Instr) : decode (encode i) = .ok i := (decodeIffEncode (encode i) i).2 rfl

theorem completion_issue_encode (i : Instr) (s : State) :
    completion (issue (encode i) s) = exec i (issue (encode i) s) :=
  completion_of_decode (decode_encode i)

/-- A word that needs no more bits than it is given is placed as it is. -/
theorem withFetchWord_toNat (s : State) (w : Word) : s.withFetchWord 32 w.toNat = placeCommand w s := by
  rw [State.withFetchWord, Nat.mod_eq_of_lt w.isLt, BitVec.ofNat_toNat, BitVec.setWidth_eq]

theorem step_placeCommand (w : Word) (s : State) : step (placeCommand w s) = completion (issue w s) :=
  step_of_engine_busy rfl rfl

/-- Settles O4: the ENGINE's turn is the completion step, which runs the decoded command, and a placed word is issued
with the ENGINE's turn next. -/
theorem stepRunsTheDecodedCommand : Obligations.StepRunsTheDecodedCommand := by
  refine ⟨fun s i rest hb hd => ⟨fun hev => ?_, fun hev => ?_⟩, fun s i => ?_⟩
  · rw [step_of_no_event_busy hb hev, completion_of_decode hd]
  · rw [step_of_engine_busy hb hev]
    exact completion_of_decode hd
  · rw [withFetchWord_toNat, step_placeCommand, completion_issue_encode]

/-! ### Issue -/

theorem busWrite_cmd {s : State} (hb : s.busy = false) (w : Word) : busWrite 0x008#14 w 0xF#4 s = issue w s :=
  busWrite_of_rest rfl hb w

/-- A CMD write at rest issues its word, and answers no error (40_control.md R131). -/
theorem step_of_cmdWrite {s : State} {w : Word} {rest : List Event} (hb : s.busy = false)
    (hev : s.events = .host { kind := .write, addr := 0x008#14, wdata := w, wstrb := 0xF#4 } :: rest) :
    step s = .next (issue w { s with events := rest, resp := some { rdata := 0#32, err := false } }) := by
  have hissue : busWrite 0x008#14 w 0xF#4 { s with events := rest } = issue w { s with events := rest } :=
    busWrite_cmd (s := { s with events := rest }) hb w
  have hanswer : writeFails 0x008#14 0xF#4 = false := rfl
  rw [step, hev]
  dsimp only
  rw [transact_of_write rfl, hissue, hanswer]
  rfl

/-- Settles O9: the step of the write is `issue`, and with DONE clear `irq` is low. -/
theorem cmdWriteIssues : Obligations.CmdWriteIssues := by
  intro s w rest hb hev
  exact ⟨_, step_of_cmdWrite hb hev, Bool.and_false _, rfl⟩

/-- Settles O5: the write issues the command (`step_of_cmdWrite`) and the ENGINE's turn completes it. -/
theorem commandRunIsTwoSteps : Obligations.CommandRunIsTwoSteps := by
  intro s i rest hb hev
  refine ⟨_, step_of_cmdWrite hb hev, ?_⟩
  rw [step_of_engine_busy rfl rfl, runCommand, ← completion_issue_encode]
  rfl

/-! ### Completion -/

/-- No check fails with AUTH: that code is SIV_DEC's own (60_exceptions.md R273). -/
theorem check_ne_auth (i : Instr) (s : State) : check i s ≠ .auth := by
  unfold check
  repeat' split
  all_goals decide

/-- Settles O29: a failed check is the error outcome (`exec_of_error`), and its code is one of the four that the checks
report. -/
theorem errorOutcomeSetsOnlyErrcode : Obligations.ErrorOutcomeSetsOnlyErrcode :=
  fun i s h => ⟨exec_of_error rfl h, check_ne_auth i s⟩

/-- A decoded word has the check of its command. -/
theorem checkWord_of_decode {w : Word} {i : Instr} (hd : decode w = .ok i) (s : State) :
    checkWord w s = check i s := by
  rw [checkWord, hd]

/-- The schedule is no part of what is checked. -/
theorem checkWord_events (w : Word) (s : State) (es : List Event) :
    checkWord w { s with events := es } = checkWord w s := by
  unfold checkWord
  split
  · rfl
  · exact check_congr _ rfl rfl rfl

/-- SIV_DEC sets no code but AUTH (43_siv.md R236). -/
theorem sivDecEffect_errcode (enc : BlockCipher) (s : State) :
    (sivDecEffect enc s).errcode = s.errcode ∨ (sivDecEffect enc s).errcode = .auth := by
  unfold sivDecEffect
  dsimp only
  split
  · exact .inl rfl
  · exact .inr rfl

/-- A command that passes its checks keeps ERRCODE, unless it is SIV_DEC (40_control.md R133). -/
theorem effectOf_errcode {i : Instr} (hi : i ≠ .sivDec) (s : State) : (effectOf i s).errcode = s.errcode := by
  cases i with
  | nop | cmac | s2vInit | s2vAd | s2vFinal | ctr | sivEnc | dbl | xor | pad | mask | zeroize => rfl
  | s2vNonce =>
    obtain ⟨d, p, he⟩ := s2vNonceEffect_updates Config.aesEnc s
    rw [effectOf, he]
  | sivDec => exact absurd rfl hi

theorem effectOf_errcode_cases (i : Instr) (s : State) :
    (effectOf i s).errcode = s.errcode ∨ (effectOf i s).errcode = .auth := by
  by_cases hi : i = .sivDec
  · subst hi
    exact sivDecEffect_errcode Config.aesEnc s
  · exact .inl (effectOf_errcode hi s)

/-- Settles O6 by the two cases of a completion step; the schedule is no part of what is checked. -/
theorem completionStep : Obligations.CompletionStep := by
  intro s rest hb hev
  have hcheck : checkWord s.pending { s with events := rest } = checkWord s.pending s := checkWord_events _ s rest
  rw [step_of_engine_busy hb hev]
  rcases completion_cases { s with events := rest } with ⟨i, hd, hc, he⟩ | ⟨hc, he⟩
  · have hpass : checkWord s.pending s = .noError := by rw [← hcheck, checkWord_of_decode hd, hc]
    exact ⟨fun h => absurd hpass h, fun _ => ⟨i, _, hd, completion_of_decode hd, he, rfl, rfl,
      fun hi => effectOf_errcode hi _, effectOf_errcode_cases i _⟩⟩
  · dsimp only at hc he
    rw [hcheck] at hc he
    exact ⟨fun _ => he, fun h => absurd h hc⟩

/-! ### A command in flight completes -/

theorem exists_completion_ends (s : State) : ∃ t, completion s = .next t ∧ t.busy = false ∧ t.done = true := by
  rcases completion_cases s with ⟨i, -, -, he⟩ | ⟨-, he⟩ <;> exact ⟨_, he, rfl, rfl⟩

/-- A transaction takes no word out of flight (20_memory.md R71). -/
theorem transact_keeps_flight {s : State} (hb : s.busy = true) (tr : Transaction) :
    (transact tr s).busy = true ∧ (transact tr s).pending = s.pending ∧ (transact tr s).events = s.events := by
  obtain ⟨d, c, v, r, he⟩ := onlyW1cMoved_transact hb tr
  rw [he]
  exact ⟨hb, rfl, rfl⟩

/-- Every RESET of the schedule stands after an ENGINE's turn. -/
def ResetsAfterEngine (es : List Event) : Prop :=
  ∀ before after, es = before ++ .reset :: after → Event.engine ∈ before

theorem not_resetsAfterEngine_reset (es : List Event) : ¬ ResetsAfterEngine (.reset :: es) :=
  fun h => List.not_mem_nil (h [] es rfl)

theorem ResetsAfterEngine.of_host {tr : Transaction} {es : List Event} (h : ResetsAfterEngine (.host tr :: es)) :
    ResetsAfterEngine es := by
  intro before after he
  have hmem : Event.engine ∈ .host tr :: before := h (.host tr :: before) after (by rw [he, List.cons_append])
  exact (List.mem_cons.1 hmem).resolve_left (by simp)

/-- The command in flight completes within `n` steps; until then it is in flight with its word. -/
def CompletesWithin (n : Nat) (s : State) : Prop :=
  ∃ k t, 0 < k ∧ k ≤ n ∧ Host.Core.run Sys2Proof.core k s = .next t ∧ State.busy t = false ∧ State.done t = true ∧
    ∀ j < k, ∃ r, Host.Core.run Sys2Proof.core j s = .next r ∧ State.busy r = true ∧ State.pending r = s.pending

theorem run_succ_of_step {s r : State} (h : step s = .next r) (k : Nat) :
    Host.Core.run Sys2Proof.core (k + 1) s = Host.Core.run Sys2Proof.core k r := by
  have hcore : Sys2Proof.core.step s = .next r := h
  simp only [Host.Core.run, hcore]

theorem completesWithin_of_completion {s : State} (hb : s.busy = true) {u : State} (h : step s = completion u)
    (n : Nat) : CompletesWithin (n + 1) s := by
  obtain ⟨t, ht, hbusy, hdone⟩ := exists_completion_ends u
  refine ⟨1, t, Nat.one_pos, Nat.le_add_left 1 n, run_succ_of_step (h.trans ht) 0, hbusy, hdone, fun j hj => ?_⟩
  obtain rfl : j = 0 := Nat.lt_one_iff.1 hj
  exact ⟨s, rfl, hb, rfl⟩

/-- A step that leaves the command in flight puts its completion one step further off. -/
theorem CompletesWithin.of_step {n : Nat} {s r : State} (hb : s.busy = true) (h : step s = .next r)
    (hp : r.pending = s.pending) (hr : CompletesWithin n r) : CompletesWithin (n + 1) s := by
  obtain ⟨k, t, -, hk, ht, hbusy, hdone, hflight⟩ := hr
  refine ⟨k + 1, t, Nat.succ_pos k, Nat.succ_le_succ hk, (run_succ_of_step h k).trans ht, hbusy, hdone, fun j hj => ?_⟩
  cases j with
  | zero => exact ⟨s, rfl, hb, rfl⟩
  | succ j =>
    rw [run_succ_of_step h, ← hp]
    exact hflight j (Nat.lt_of_succ_lt_succ hj)

/-- By induction on the schedule: a transaction leaves the command in flight, the ENGINE's turn or the end of the
schedule completes it, and no RESET is met. -/
theorem completesWithin_schedule {es : List Event} {s : State} (hev : s.events = es) (hb : s.busy = true)
    (h : ResetsAfterEngine es) : CompletesWithin (es.length + 1) s := by
  induction es generalizing s with
  | nil => exact completesWithin_of_completion hb (step_of_no_event_busy hb hev) 0
  | cons e rest ih =>
    cases e with
    | host tr =>
      obtain ⟨hbusy, hpending, hevents⟩ := transact_keeps_flight (s := { s with events := rest }) hb tr
      have hstep : step s = .next (transact tr { s with events := rest }) := by rw [step, hev]
      exact .of_step hb hstep hpending (ih hevents hbusy h.of_host)
    | engine => exact completesWithin_of_completion hb (step_of_engine_busy hb hev) _
    | reset => exact absurd h (not_resetsAfterEngine_reset rest)

/-- Settles O7 by `completesWithin_schedule`. -/
theorem everyIssuedCommandCompletes : Obligations.EveryIssuedCommandCompletes :=
  fun _ hb h => completesWithin_schedule rfl hb h

/-! ### NOP and ZEROIZE -/

/-- STATUS after a command that ends with no error and no released output: DONE, the phase and the sticky bits. -/
theorem statusWord_of_quiet_completion {t : State} {p : Phase} (hbusy : t.busy = false) (hdone : t.done = true)
    (hvalid : t.outValid = false) (herr : t.errcode = .noError) (hphase : t.phase = p) :
    statusWord t = (phaseNumber p).setWidth 32 <<< 12 ||| 0x00000002#32 ||| (if t.cmdOvr then 0x8#32 else 0#32) |||
      (if t.busViol then 0x10#32 else 0#32) := by
  rw [statusWord, hbusy, hdone, hvalid, herr, hphase]
  cases p <;> cases t.cmdOvr <;> cases t.busViol <;> rfl

/-- Settles O10: the effect of NOP is none, so the end of the lifecycle is all there is. -/
theorem nopCompletes : Obligations.NopCompletes := by
  intro s
  have hstatus (p : Phase) (hovr : s.cmdOvr = false) (hviol : s.busViol = false) (hphase : s.phase = p) :
      statusWord (finish (issue (encode .nop) s)) = (phaseNumber p).setWidth 32 <<< 12 ||| 0x00000002#32 := by
    rw [statusWord_of_quiet_completion (t := finish (issue (encode .nop) s)) rfl rfl rfl rfl hphase]
    simp [hovr, hviol]
  exact ⟨exec_of_noError (check_nop s), finish (issue (encode .nop) s), rfl, rfl, rfl, rfl, rfl, rfl, rfl, rfl, rfl,
    hstatus .ad, hstatus .idle⟩

/-- Settles O11: ZEROIZE passes its check in every state, and its effect and the end of the lifecycle give the state. -/
theorem zeroizeCompletes : Obligations.ZeroizeCompletes := by
  intro s
  refine ⟨exec_of_noError (check_zeroize s), finish (zeroizeEffect (issue (encode .zeroize) s)), rfl, rfl, rfl, ?_⟩
  rw [statusWord_of_quiet_completion (p := .idle) rfl rfl rfl rfl rfl]
  rfl

/-! ### The key halves -/

theorem slice_eq_map_getD {bs : List Byte} {a n : Nat} (h : a + n ≤ bs.length) :
    slice bs a (a + n) = (List.range n).map fun i => bs.getD (a + i) 0#8 := by
  apply List.ext_getElem
  · rw [length_slice, List.length_map, List.length_range]
    omega
  · intro i hi hi'
    rw [List.length_map, List.length_range] at hi'
    rw [getElem_slice, List.getElem_map, List.getElem_range, List.getD_eq_getElem]

/-- Settles O40: each half is a slice of KEY whose ends the key size gives. -/
theorem keySplit : Obligations.KeySplit := by
  intro s
  have hlen : s.key.toList.length = 64 := Vector.length_toList
  have hslice (a n : Nat) (h : a + n ≤ 64) :
      slice s.key.toList a (a + n) = (List.range n).map fun i => s.key.toList.getD (a + i) 0#8 :=
    slice_eq_map_getD (hlen.symm ▸ h)
  refine ⟨fun hk => ?_, fun hk => ?_⟩
  · have hhalf : keyHalf s = 16 := if_pos hk
    rw [key1, key2, hhalf]
    exact ⟨by simpa using hslice 0 16 (by decide), hslice 16 16 (by decide)⟩
  · have hhalf : keyHalf s = 32 := if_neg (by rw [hk]; decide)
    rw [key1, key2, hhalf]
    exact ⟨by simpa using hslice 0 32 (by decide), hslice 32 32 (by decide)⟩

/-! ### What the commands read of KEY -/

section ReadsOfKey

variable {s : State} {k : Vector Byte 64}

/-- With KEYSIZE = 0 both halves lie in KEY[0..32). -/
theorem keyHalves_of_agree (hsize : s.keysize = 0#2)
    (hk : ∀ j < 32, k.toList.getD j 0#8 = s.key.toList.getD j 0#8) :
    key1 { s with key := k } = key1 s ∧ key2 { s with key := k } = key2 s := by
  obtain ⟨h1, h2⟩ := (keySplit s).1 hsize
  obtain ⟨h1', h2'⟩ := (keySplit { s with key := k }).1 hsize
  rw [h1, h2, h1', h2']
  constructor
  · refine List.map_congr_left fun i hi => hk i ?_
    have := List.mem_range.1 hi
    omega
  · refine List.map_congr_left fun i hi => hk (16 + i) ?_
    have := List.mem_range.1 hi
    omega

theorem sivDecEffect_of_keyHalves (enc : BlockCipher) (h1 : key1 { s with key := k } = key1 s)
    (h2 : key2 { s with key := k } = key2 s) :
    sivDecEffect enc { s with key := k } = { sivDecEffect enc s with key := k } := by
  have hv : receivedSiv { s with key := k } = receivedSiv s := rfl
  have hp : candidatePlaintext enc { s with key := k } = candidatePlaintext enc s := by
    rw [candidatePlaintext, h2]
    rfl
  have hv' : recomputedSiv enc { s with key := k } = recomputedSiv enc s := by
    rw [recomputedSiv, h1, hp]
    rfl
  unfold sivDecEffect
  rw [hv, hp, hv']
  dsimp only
  split <;> rfl

/-- A key-using command reads KEY through its two halves alone (40_control.md R134). -/
theorem effectOf_of_keyHalves {i : Instr} (hi : keyUsing i = true) (h1 : key1 { s with key := k } = key1 s)
    (h2 : key2 { s with key := k } = key2 s) : effectOf i { s with key := k } = { effectOf i s with key := k } := by
  cases i with
  | cmac => rw [effectOf, cmacEffect, h1]; rfl
  | s2vInit => rw [effectOf, s2vInitEffect, h1]; rfl
  | s2vAd => rw [effectOf, s2vAdEffect, h1]; rfl
  | s2vNonce =>
    have hlen : inputLen { s with key := k } = inputLen s := rfl
    rw [effectOf, s2vNonceEffect, s2vNonceEffect, h1, hlen]
    split <;> rfl
  | s2vFinal => rw [effectOf, s2vFinalEffect, h1]; rfl
  | ctr => rw [effectOf, ctrEffect, h2]; rfl
  | sivEnc => rw [effectOf, sivEncEffect, h1, h2]; rfl
  | sivDec => exact sivDecEffect_of_keyHalves Config.aesEnc h1 h2
  | nop | dbl | xor | pad | mask | zeroize => exact absurd hi (by decide)

/-- A command that is not key-using reads no byte of KEY (60_exceptions.md R271). -/
theorem effectOf_of_not_keyUsing {i : Instr} (hi : keyUsing i = false) (hz : i ≠ .zeroize) :
    effectOf i { s with key := k } = { effectOf i s with key := k } := by
  cases i with
  | nop | dbl | xor | pad | mask => rfl
  | zeroize => exact absurd rfl hz
  | cmac | s2vInit | s2vAd | s2vNonce | s2vFinal | ctr | sivEnc | sivDec => exact absurd hi (by decide)

end ReadsOfKey

/-- Settles O26: the check does not read KEY (`check_congr`), an error leaves it, and an effect reads it through the key
halves, which lie below byte 32, or not at all. -/
theorem unusedKeyBytesAreNeverRead : Obligations.UnusedKeyBytesAreNeverRead := by
  intro i s t k h hk
  have hcheck : check i { s with key := k } = check i s := check_congr i rfl rfl rfl
  by_cases hi : i = .zeroize
  · subst hi
    cases h
    rfl
  · have heffect : effectOf i { s with key := k } = { effectOf i s with key := k } := by
      cases hu : keyUsing i with
      | false => exact effectOf_of_not_keyUsing hu hi
      | true =>
        obtain ⟨hsize, hagree⟩ := hk hu
        obtain ⟨h1, h2⟩ := keyHalves_of_agree hsize hagree
        exact effectOf_of_keyHalves hu h1 h2
    rw [if_neg hi]
    rcases exec_cases i s with ⟨hc, he⟩ | ⟨hc, he⟩ <;> rw [he] at h <;> cases h
    · rw [exec_of_noError (hcheck.trans hc), heffect]
      rfl
    · rw [exec_of_error hcheck hc]
      rfl

end Sys2Proof.Machine

/-! The CMAC family (41_cmac.md): doubling (R160), padding (R162), CMAC as a chain over whole blocks and a last part
(R163, R164), and the commands CMAC, DBL, MASK, XOR and PAD (R166 to R169; 43_siv.md R233). -/

namespace Sys2Proof.Machine

/-! ### Doubling -/

/-- The bit that falls out of the shift, as a comparison. -/
theorem getLsbD_127_iff (x : Block) : x.getLsbD 127 = true ↔ 2 ^ 127 ≤ x.toNat := by
  rw [← BitVec.msb_eq_getLsbD_last, BitVec.msb_eq_decide, decide_eq_true_iff]

theorem toNat_dbl (x : Block) :
    (dbl x).toNat = if 2 ^ 127 ≤ x.toNat then (2 * x.toNat % 2 ^ 128) ^^^ 0x87 else 2 * x.toNat % 2 ^ 128 := by
  have hshift : (x <<< 1).toNat = 2 * x.toNat % 2 ^ 128 := by
    rw [BitVec.toNat_shiftLeft, Nat.shiftLeft_eq, Nat.mul_comm, Nat.pow_one]
  by_cases h : 2 ^ 127 ≤ x.toNat
  · rw [dbl, if_pos ((getLsbD_127_iff x).2 h), if_pos h, BitVec.toNat_xor, hshift]
    rfl
  · rw [dbl, if_neg (mt (getLsbD_127_iff x).1 h), if_neg h, hshift]

/-- What doubling adds to the shift: 0x87 if a bit falls out. -/
def reduction (carry : Bool) : Block := if carry then 0x87#128 else 0#128

theorem dbl_eq_shift_xor_reduction (x : Block) : dbl x = x <<< 1 ^^^ reduction (x.getLsbD 127) := by
  unfold dbl reduction
  split
  · rfl
  · rw [BitVec.xor_zero]

theorem reduction_xor (c d : Bool) : reduction (c ^^ d) = reduction c ^^^ reduction d := by
  cases c <;> cases d <;> rfl

theorem dbl_xor (a b : Block) : dbl (a ^^^ b) = dbl a ^^^ dbl b := by
  simp only [dbl_eq_shift_xor_reduction, BitVec.shiftLeft_xor_distrib, BitVec.getLsbD_xor, reduction_xor]
  ac_rfl

/-- Settles O33: the shift is the doubling modulo 2^128 (`toNat_dbl`), and shift and reduction are both linear
(`dbl_xor`). -/
theorem dblDoublesInTheField : Obligations.DblDoublesInTheField :=
  ⟨toNat_dbl, dbl_xor, by decide, by decide, by decide, by decide, by decide⟩

/-! ### Padding -/

theorem length_padding {m : List Byte} (h : m.length ≤ 15) :
    (m ++ 0x80#8 :: List.replicate (15 - m.length) 0#8).length = 16 := by
  rw [List.length_append, List.length_cons, List.length_replicate]
  omega

theorem bytesOfBlock_pad {m : List Byte} (h : m.length ≤ 15) :
    bytesOfBlock (pad m) = m ++ 0x80#8 :: List.replicate (15 - m.length) 0#8 :=
  bytesOfBlock_blockOfBytes (length_padding h)

theorem blockByte_pad {m : List Byte} (h : m.length ≤ 15) {i : Nat} (hi : i < 16) :
    blockByte (pad m) i = if i < m.length then m.getD i 0#8 else if i = m.length then 0x80#8 else 0#8 := by
  rw [pad, blockByte_blockOfBytes (length_padding h) hi]
  by_cases hlt : i < m.length
  · rw [if_pos hlt, List.getD_append _ _ _ _ hlt]
  · rw [if_neg hlt, List.getD_append_right _ _ _ _ (Nat.le_of_not_lt hlt)]
    by_cases heq : i = m.length
    · rw [if_pos heq, heq, Nat.sub_self, List.getD_cons_zero]
    · rw [if_neg heq, show i - m.length = (i - m.length - 1) + 1 by omega, List.getD_cons_succ,
        List.getD_replicate _ (by omega)]

/-- Settles O34: the string under `blk` in `pad` has 16 bytes, so `blk` keeps them. -/
theorem padAppendsOneBitAndZeros : Obligations.PadAppendsOneBitAndZeros := by
  intro m h
  rw [bytesOfBlock_pad h, List.append_assoc, List.singleton_append]

/-! ### CMAC of whole blocks and a last part -/

theorem length_flatMap_bytesOfBlock (bs : List Block) : (bs.flatMap bytesOfBlock).length = 16 * bs.length := by
  induction bs with
  | nil => rfl
  | cons b bs ih =>
    rw [List.flatMap_cons, List.length_append, length_bytesOfBlock, ih, List.length_cons]
    omega

/-- Every message is whole blocks and a last part of at most 16 bytes, empty only for the empty message. -/
theorem exists_blocks_append (m : List Byte) : ∃ (bs : List Block) (tail : List Byte),
    tail.length ≤ 16 ∧ (tail.length = 0 → bs = []) ∧ m = bs.flatMap bytesOfBlock ++ tail := by
  by_cases hm : m.length ≤ 16
  · exact ⟨[], m, hm, fun _ => rfl, rfl⟩
  · obtain ⟨bs, tail, htail, hempty, hdrop⟩ := exists_blocks_append (m.drop 16)
    have hlen : (m.take 16).length = 16 := by
      rw [List.length_take]
      omega
    refine ⟨blockOfBytes (m.take 16) :: bs, tail, htail, fun h0 => ?_, ?_⟩
    · rw [hempty h0, List.eq_nil_of_length_eq_zero h0] at hdrop
      exact absurd (List.drop_eq_nil_iff.1 hdrop) hm
    · rw [List.flatMap_cons, bytesOfBlock_blockOfBytes hlen, List.append_assoc, ← hdrop, List.take_append_drop]
termination_by m.length
decreasing_by
  rw [List.length_drop]
  omega

section BlocksAndTail

variable (bs : List Block) (tail : List Byte)

/-- Dropping whole blocks from the front. -/
theorem drop_blocks_append {i : Nat} (hi : i ≤ bs.length) :
    (bs.flatMap bytesOfBlock ++ tail).drop (16 * i) = (bs.drop i).flatMap bytesOfBlock ++ tail := by
  have hlen : ((bs.take i).flatMap bytesOfBlock).length = 16 * i := by
    rw [length_flatMap_bytesOfBlock, List.length_take_of_le hi]
  calc (bs.flatMap bytesOfBlock ++ tail).drop (16 * i)
    _ = ((bs.take i).flatMap bytesOfBlock ++ ((bs.drop i).flatMap bytesOfBlock ++ tail)).drop (16 * i) := by
      rw [← List.append_assoc, ← List.flatMap_append, List.take_append_drop]
    _ = (bs.drop i).flatMap bytesOfBlock ++ tail := List.drop_left' hlen

theorem msgBlock_of_lt {i : Nat} (hi : i < bs.length) : msgBlock (bs.flatMap bytesOfBlock ++ tail) i = bs[i] := by
  rw [msgBlock, slice, drop_blocks_append bs tail hi.le, List.drop_eq_getElem_cons hi, List.flatMap_cons,
    List.append_assoc, show 16 * (i + 1) - 16 * i = 16 by omega, List.take_left' (length_bytesOfBlock _),
    blockOfBytes_bytesOfBlock]

/-- The blocks that the chain runs over are the whole blocks. -/
theorem map_msgBlock_range : (List.range bs.length).map (msgBlock (bs.flatMap bytesOfBlock ++ tail)) = bs := by
  refine List.ext_getElem (by simp) fun i h hi => ?_
  rw [List.getElem_map, List.getElem_range, msgBlock_of_lt bs tail hi]

/-- Past the whole blocks stands the last part. -/
theorem slice_tail {b : Nat} (hb : 16 * bs.length + tail.length ≤ b) :
    slice (bs.flatMap bytesOfBlock ++ tail) (16 * bs.length) b = tail := by
  rw [slice, drop_blocks_append bs tail le_rfl, List.drop_length, List.flatMap_nil, List.nil_append,
    List.take_of_length_le (by omega)]

section
variable (hle : tail.length ≤ 16) (hempty : tail.length = 0 → bs = [])
include hle hempty

theorem lastComplete_blocks_append : lastComplete (bs.flatMap bytesOfBlock ++ tail) = decide (tail.length = 16) := by
  have hzero : tail.length = 0 → bs.length = 0 := fun h => List.length_eq_zero_iff.2 (hempty h)
  rw [lastComplete, ← Bool.decide_and, decide_eq_decide, List.length_append, length_flatMap_bytesOfBlock]
  omega

theorem blockCount_blocks_append : blockCount (bs.flatMap bytesOfBlock ++ tail) = bs.length + 1 := by
  rw [blockCount, lastComplete_blocks_append bs tail hle hempty, List.length_append, length_flatMap_bytesOfBlock]
  by_cases h : tail.length = 16
  · rw [if_pos (decide_eq_true h)]
    omega
  · rw [if_neg (by simpa using h)]
    omega

theorem lastBlock_blocks_append (k1 k2 : Block) :
    lastBlock k1 k2 (bs.flatMap bytesOfBlock ++ tail) =
      if tail.length = 16 then blockOfBytes tail ^^^ k1 else pad tail ^^^ k2 := by
  have hlen : (bs.flatMap bytesOfBlock ++ tail).length = 16 * bs.length + tail.length := by
    rw [List.length_append, length_flatMap_bytesOfBlock]
  rw [lastBlock, lastComplete_blocks_append bs tail hle hempty, blockCount_blocks_append bs tail hle hempty]
  simp only [Nat.add_sub_cancel, decide_eq_true_eq]
  split
  · rw [msgBlock, slice_tail bs tail (by omega)]
  · rw [slice_tail bs tail hlen.ge]

theorem cmac_blocks_append (enc : BlockCipher) (k : List Byte) :
    cmac enc k (bs.flatMap bytesOfBlock ++ tail) =
      enc k (bs.foldl (fun x b => enc k (x ^^^ b)) 0#128 ^^^
        if tail.length = 16 then blockOfBytes tail ^^^ dbl (enc k 0#128)
        else pad tail ^^^ dbl (dbl (enc k 0#128))) := by
  have hchain : (List.range bs.length).foldl
      (fun x i => enc k (x ^^^ msgBlock (bs.flatMap bytesOfBlock ++ tail) i)) 0#128 =
      bs.foldl (fun x b => enc k (x ^^^ b)) 0#128 := by
    conv_rhs => rw [← map_msgBlock_range bs tail, List.foldl_map]
  rw [cmac, blockCount_blocks_append bs tail hle hempty, lastBlock_blocks_append bs tail hle hempty, Nat.add_sub_cancel]
  simp only [hchain, subkeys]

end

end BlocksAndTail

/-- Settles O35: the blocks of the chain are the whole blocks and the last block is the last part under its subkey
(`cmac_blocks_append`); the decomposition takes blocks off the front (`exists_blocks_append`). -/
theorem cmacIsCbcMacWithSubkeys : Obligations.CmacIsCbcMacWithSubkeys :=
  ⟨fun enc k bs tail hle hempty => cmac_blocks_append bs tail hle hempty enc k, exists_blocks_append⟩

/-! ### The commands -/

/-- Settles O12: CONFIG comes before LENGTH in the check (`check_cmac_ctr`); past it the effect writes RESULT alone. -/
theorem cmacCompletes : Obligations.CmacCompletes := by
  intro s
  have hcheck := check_cmac_ctr s (.inl rfl : Instr.cmac = .cmac ∨ Instr.cmac = .ctr)
  refine ⟨fun hsize hlen => ?_, fun hsize => ?_, fun hsize hlen => ?_⟩
  · rw [if_neg (by omega), if_neg (by omega)] at hcheck
    exact exec_of_noError hcheck
  · rw [if_pos hsize] at hcheck
    exact exec_of_error hcheck (by decide)
  · rw [if_neg (by omega), if_pos hlen] at hcheck
    exact exec_of_error hcheck (by decide)

/-- The mask, byte by byte: the top bit of bytes 8 and 12 is cleared (43_siv.md R230). -/
theorem blockByte_mask (v : Block) {i : Nat} (hi : i < 16) :
    blockByte (mask v) i = if i = 8 ∨ i = 12 then blockByte v i &&& 0x7F#8 else blockByte v i := by
  have hbytes : ∀ i < 16, blockByte (~~~0x00000000000000008000000080000000#128) i =
      if i = 8 ∨ i = 12 then 0x7F#8 else BitVec.allOnes 8 := by decide
  rw [mask, blockByte_and, hbytes i hi]
  split
  · rfl
  · exact BitVec.and_allOnes

theorem and_0x7F_of_lt {b : Byte} (h : b < 0x80#8) : b &&& 0x7F#8 = b := by
  apply BitVec.eq_of_toNat_eq
  rw [BitVec.toNat_and]
  exact (Nat.and_two_pow_sub_one_eq_mod b.toNat 7).trans (Nat.mod_eq_of_lt h)

theorem mask_of_clear {v : Block} (h8 : blockByte v 8 < 0x80#8) (h12 : blockByte v 12 < 0x80#8) : mask v = v := by
  refine block_ext fun i hi => ?_
  rw [blockByte_mask v hi]
  split
  · next h =>
    rcases h with rfl | rfl
    · exact and_0x7F_of_lt h8
    · exact and_0x7F_of_lt h12
  · rfl

/-- Settles O13: neither command has a check to fail, and a mask whose two bits are clear already changes nothing
(`mask_of_clear`). -/
theorem dblAndMaskComplete : Obligations.DblAndMaskComplete := by
  intro s
  refine ⟨exec_of_noError (check_dbl s), exec_of_noError (check_mask s), ?_, ?_, ?_, ?_, mask_of_clear⟩
  all_goals
    intro hiv
    rw [hiv]
    decide

theorem blockByte_inputBlock (s : State) {i : Nat} (hi : i < 16) :
    blockByte (inputBlock s) i = Memory.read s.ibuf i := by
  rw [inputBlock, ibufSlice, blockByte_blockOfBytes (length_readBytes _ _ _) hi, getD_readBytes _ _ hi, Nat.zero_add]

/-- Settles O14: the check asks for LEN = 16 alone (`check_xor`), and RESULT is IV xor the input block, byte by byte. -/
theorem xorCompletes : Obligations.XorCompletes := by
  intro s
  have hcheck := check_xor s
  refine ⟨fun hlen => ?_, fun hlen => ?_⟩
  · have hlen16 : s.len.toNat = 16 := congrArg BitVec.toNat hlen
    have hbytes (i : Nat) (hi : i < 16) :
        blockByte (s.iv ^^^ inputBlock s) i = blockByte s.iv i ^^^ Memory.read s.ibuf i := by
      rw [blockByte_xor, blockByte_inputBlock s hi]
    rw [if_pos hlen16] at hcheck
    refine ⟨s.iv ^^^ inputBlock s, exec_of_noError hcheck, hbytes, fun heq => block_ext fun i hi => ?_⟩
    rw [hbytes i hi, heq i hi, BitVec.xor_self, blockByte_zero]
  · have hlen16 : s.len.toNat ≠ 16 := fun h => hlen (BitVec.eq_of_toNat_eq h)
    rw [if_neg hlen16] at hcheck
    exact exec_of_error hcheck (by decide)

/-- Settles O15: the check asks for LEN ≤ 15 alone (`check_pad`), and RESULT is the padded input (`blockByte_pad`). -/
theorem padCompletes : Obligations.PadCompletes := by
  intro s
  have hcheck := check_pad s
  refine ⟨fun hlen => ?_, fun hlen => ?_⟩
  · rw [if_neg (by omega)] at hcheck
    refine ⟨pad (readBytes s.ibuf 0 s.len.toNat), exec_of_noError hcheck, fun i hi => ?_⟩
    rw [blockByte_pad (by rwa [length_readBytes]) hi, length_readBytes]
    by_cases hin : i < s.len.toNat
    · rw [if_pos hin, if_pos hin, getD_readBytes _ _ hin, Nat.zero_add]
    · rw [if_neg hin, if_neg hin]
  · rw [if_pos hlen] at hcheck
    exact exec_of_error hcheck (by decide)

end Sys2Proof.Machine

/-! The S2V chain (42_s2v.md): the final combining step (R204), the four commands (R201 to R203, R205), the phase after
each command (R200), the writes that close a chain (R207), and the chain of commands as the source's S2V (R206). -/

namespace Sys2Proof.Machine

/-! ### The final combining step -/

section

variable {d : Block} {p : List Byte}

/-- From 16 bytes on, the payload's end takes the accumulator (42_s2v.md R204). -/
theorem s2vTail_of_ge (h : 16 ≤ p.length) :
    s2vTail d p = p.take (p.length - 16) ++ xorBytes (p.drop (p.length - 16)) (bytesOfBlock d) := by
  have hend : slice p (p.length - 16) p.length = p.drop (p.length - 16) := by
    rw [slice, List.take_of_length_le (by rw [List.length_drop])]
  rw [s2vTail, if_pos h, hend, slice, List.drop_zero, Nat.sub_zero]

theorem s2vTail_of_lt (h : p.length < 16) : s2vTail d p = bytesOfBlock (dbl d ^^^ pad p) :=
  if_neg (Nat.not_le.2 h)

theorem getD_s2vTail_front (h : 16 ≤ p.length) {j : Nat} (hj : j < p.length - 16) :
    (s2vTail d p).getD j 0#8 = p.getD j 0#8 := by
  rw [s2vTail_of_ge h, List.getD_append _ _ _ _ (by rw [List.length_take]; omega), List.getD_eq_getElem?_getD,
    List.getElem?_take_of_lt hj, ← List.getD_eq_getElem?_getD]

theorem getD_xorBytes {s t : List Byte} {i : Nat} (hs : i < s.length) (ht : i < t.length) :
    (xorBytes s t).getD i 0#8 = s.getD i 0#8 ^^^ t.getD i 0#8 := by
  rw [List.getD_eq_getElem _ _ (by rw [length_xorBytes]; omega), List.getD_eq_getElem _ _ hs,
    List.getD_eq_getElem _ _ ht]
  exact List.getElem_zipWith ..

theorem getD_bytesOfBlock (x : Block) {i : Nat} (hi : i < 16) : (bytesOfBlock x).getD i 0#8 = blockByte x i := by
  rw [List.getD_eq_getElem _ _ (by rwa [length_bytesOfBlock]), getElem_bytesOfBlock]

theorem getD_s2vTail_end (h : 16 ≤ p.length) {i : Nat} (hi : i < 16) :
    (s2vTail d p).getD (p.length - 16 + i) 0#8 = p.getD (p.length - 16 + i) 0#8 ^^^ blockByte d i := by
  have hfront : (p.take (p.length - 16)).length = p.length - 16 := List.length_take_of_le (Nat.sub_le ..)
  have hend : (p.drop (p.length - 16)).getD i 0#8 = p.getD (p.length - 16 + i) 0#8 := by
    rw [List.getD_eq_getElem?_getD, List.getElem?_drop, ← List.getD_eq_getElem?_getD]
  rw [s2vTail_of_ge h, List.getD_append_right _ _ _ _ (by omega), hfront, Nat.add_sub_cancel_left,
    getD_xorBytes (by rw [List.length_drop]; omega) (by rwa [length_bytesOfBlock]), hend, getD_bytesOfBlock d hi]

end

/-- Settles O36: the string under the final CMAC is `s2vTail`, read byte by byte before and in its last 16 bytes. -/
theorem s2vFinalCombines : Obligations.S2vFinalCombines := by
  intro enc k d p
  refine ⟨fun h => ⟨s2vTail d p, ?_, fun j hj => getD_s2vTail_front h hj, fun i hi => getD_s2vTail_end h hi, rfl⟩,
    fun h => ?_⟩
  · rw [length_s2vTail, Nat.max_eq_left h]
  · rw [s2vFinal, s2vTail_of_lt h]

/-! ### The commands -/

/-- Settles O16: the check is of KEYSIZE alone (`check_s2vInit`). -/
theorem s2vInitCompletes : Obligations.S2vInitCompletes := by
  intro s
  have hcheck := check_s2vInit s
  refine ⟨fun hsize => ?_, fun hsize => ?_⟩
  · rw [if_neg (by omega)] at hcheck
    exact exec_of_noError hcheck
  · rw [if_pos hsize] at hcheck
    exact exec_of_error hcheck (by decide)

/-- A command that is checked for KEYSIZE, for a `bad` phase and for LEN, in this order (60_exceptions.md R277):
its effect, or the first error. -/
theorem exec_of_chain_check {i : Instr} {s : State} {bad : Prop} [Decidable bad]
    (hcheck : check i s =
      if 2 ≤ s.keysize.toNat then .config
      else if bad then .sequence
      else if bufBytes < s.len.toNat then .length else .noError) :
    (s.keysize.toNat ≤ 1 → ¬ bad → s.len.toNat ≤ bufBytes → exec i s = .next (finish (effectOf i s))) ∧
    (2 ≤ s.keysize.toNat → exec i s = .next { s with errcode := .config, busy := false, done := true }) ∧
    (s.keysize.toNat ≤ 1 → bad → exec i s = .next { s with errcode := .sequence, busy := false, done := true }) ∧
    (s.keysize.toNat ≤ 1 → ¬ bad → bufBytes < s.len.toNat →
      exec i s = .next { s with errcode := .length, busy := false, done := true }) := by
  refine ⟨fun hsize hok hlen => ?_, fun hsize => ?_, fun hsize hbad => ?_, fun hsize hok hlen => ?_⟩
  · rw [if_neg (by omega), if_neg hok, if_neg (by omega)] at hcheck
    exact exec_of_noError hcheck
  · rw [if_pos hsize] at hcheck
    exact exec_of_error hcheck (by decide)
  · rw [if_neg (by omega), if_pos hbad] at hcheck
    exact exec_of_error hcheck (by decide)
  · rw [if_neg (by omega), if_neg hok, if_pos hlen] at hcheck
    exact exec_of_error hcheck (by decide)

/-- Settles O17: past its check (`check_fold`) the effect writes ACC alone. -/
theorem s2vAdCompletes : Obligations.S2vAdCompletes := by
  intro s
  obtain ⟨hpass, hconfig, hsequence, hlength⟩ := exec_of_chain_check (check_fold s (.inl rfl : Instr.s2vAd = _ ∨ _))
  exact ⟨fun hsize hphase => hpass hsize (not_not.2 hphase), hconfig, hsequence,
    fun hsize hphase => hlength hsize (not_not.2 hphase)⟩

theorem s2vNonceEffect_of_pos (enc : BlockCipher) {s : State} (h : 0 < s.len.toNat) :
    s2vNonceEffect enc s =
      { s with acc := s2vFold enc (key1 s) s.acc (inputBytes s), phase := .nonceDone } := if_pos h

/-- An empty nonce folds nothing (42_s2v.md R203). -/
theorem s2vNonceEffect_of_empty (enc : BlockCipher) {s : State} (h : s.len.toNat = 0) : s2vNonceEffect enc s = s :=
  if_neg (by rw [inputLen]; omega)

/-- Settles O18: past its check (`check_fold`) the two cases of the effect. -/
theorem s2vNonceCompletes : Obligations.S2vNonceCompletes := by
  intro s
  obtain ⟨hpass, hconfig, hsequence, hlength⟩ := exec_of_chain_check (check_fold s (.inr rfl : _ ∨ Instr.s2vNonce = _))
  refine ⟨fun hsize hphase hpos hlen => ?_, fun hsize hphase hzero => ?_, hconfig, hsequence,
    fun hsize hphase => hlength hsize (not_not.2 hphase)⟩
  · rw [hpass hsize (not_not.2 hphase) hlen, effectOf, s2vNonceEffect_of_pos _ hpos]
    rfl
  · have hempty : s.len.toNat = 0 := congrArg BitVec.toNat hzero
    rw [hpass hsize (not_not.2 hphase) (by omega), effectOf, s2vNonceEffect_of_empty _ hempty]
    rfl

/-- Settles O19: past its check (`check_finish`) the effect writes RESULT and closes the chain. -/
theorem s2vFinalCompletes : Obligations.S2vFinalCompletes :=
  fun s => exec_of_chain_check (check_finish s (.inl rfl : Instr.s2vFinal = _ ∨ _))

/-! ### PHASE and ACC after each command -/

theorem sequenceFails_finishing {i : Instr} (hi : i ∈ [Instr.s2vFinal, .sivEnc, .sivDec]) (s : State) :
    sequenceFails i s = (s.phase == .idle) := by
  cases i with
  | s2vFinal | sivEnc | sivDec => rfl
  | nop | cmac | s2vInit | s2vAd | s2vNonce | ctr | dbl | xor | pad | mask | zeroize => exact absurd hi (by decide)

/-- A finishing command passes its check with a chain open only (42_s2v.md R205, 43_siv.md R235, R236). -/
theorem phase_ne_idle_of_check {i : Instr} (hi : i ∈ [Instr.s2vFinal, .sivEnc, .sivDec]) {s : State}
    (hc : check i s = .noError) : s.phase ≠ .idle := by
  obtain ⟨-, hseq, -⟩ := (check_noError_iff i s).1 hc
  rw [sequenceFails_finishing hi] at hseq
  exact ne_of_beq_false hseq

/-- A finishing command closes the chain, whether SIV_DEC verifies or not. -/
theorem effectOf_closes {i : Instr} (hi : i ∈ [Instr.s2vFinal, .sivEnc, .sivDec]) (s : State) :
    (effectOf i s).phase = .idle ∧ (effectOf i s).acc = 0#128 := by
  cases i with
  | s2vFinal | sivEnc => exact ⟨rfl, rfl⟩
  | sivDec =>
    obtain ⟨_, _, _, _, _, he⟩ := sivDecEffect_updates Config.aesEnc s
    rw [effectOf, he]
    exact ⟨rfl, rfl⟩
  | nop | cmac | s2vInit | s2vAd | s2vNonce | ctr | dbl | xor | pad | mask | zeroize => exact absurd hi (by decide)

/-- Settles O27: an error code is outside the chain, and past the check the effect of each row moves it. -/
theorem phaseTransitions : Obligations.PhaseTransitions := by
  intro i s
  rcases exec_cases i s with ⟨hc, he⟩ | ⟨hc, he⟩
  · refine ⟨_, he, fun h => absurd hc h, fun _ => ⟨?_, ?_, ?_, fun hi => ?_, ?_, fun hi => ?_⟩⟩
    · rintro rfl
      exact ⟨rfl, rfl⟩
    · rintro rfl
      have hphase : s.phase = .ad := phase_of_check_fold (.inl rfl) hc
      exact ⟨hphase, hphase, rfl⟩
    · rintro rfl
      have hphase : s.phase = .ad := phase_of_check_fold (.inr rfl) hc
      refine ⟨hphase, fun hpos => ?_, fun hempty => ?_⟩
      · rw [effectOf, s2vNonceEffect_of_pos _ hpos]
        exact ⟨rfl, rfl⟩
      · rw [effectOf, s2vNonceEffect_of_empty _ hempty]
        exact ⟨hphase, rfl⟩
    · exact ⟨phase_ne_idle_of_check hi hc, effectOf_closes hi s⟩
    · rintro rfl
      exact ⟨rfl, rfl⟩
    · obtain ⟨hacc, hphase⟩ := effectOf_chain hi s
      exact ⟨hphase, hacc⟩
  · exact ⟨_, he, fun _ => ⟨rfl, rfl⟩, fun h => absurd h hc⟩

/-! ### The writes that close a chain -/

/-- CTRL has one address (20_memory.md R63). -/
theorem locate_ctrl_iff (a : Nat) : locate a = .ctrl ↔ a = 0x004 := by
  by_cases h : a < 0x020
  · exact (by decide : ∀ a < 0x020, locate a = .ctrl ↔ a = 0x004) a h
  · rw [locate_of_not_control (by omega)]
    repeat' split
    all_goals exact ⟨fun e => by simp at e, fun e => by omega⟩

/-- Only the addresses of the KEY region are in it (20_memory.md R63). -/
theorem key_region_of_locate {a i : Nat} (h : locate a = .key i) : 0x020 ≤ a ∧ a < 0x060 := by
  by_cases hlo : a < 0x020
  · have hcontrol : locate a ∈ [Loc.id, .ctrl, .cmd, .status, .len, .outlen, .caps, .reserved] :=
      (by decide : ∀ a < 0x020, locate a ∈ [Loc.id, .ctrl, .cmd, .status, .len, .outlen, .caps, .reserved]) a hlo
    rw [h] at hcontrol
    simp at hcontrol
  · rw [locate_of_not_control (by omega)] at h
    split at h
    · omega
    · repeat' split at h
      all_goals cases h

theorem abortChain_of_open {s : State} (h : s.phase ≠ .idle) : abortChain s = closeChain s := if_neg h

/-- Under a supported KEYSIZE a finishing command with no chain open is out of sequence (60_exceptions.md R275). -/
theorem check_finishing_of_idle {i : Instr} (hi : i ∈ [Instr.s2vFinal, .sivEnc, .sivDec]) {s : State}
    (hsize : s.keysize.toNat ≤ 1) (hphase : s.phase = .idle) : check i s = .sequence := by
  have hconfig : configFails i s = false := by
    rw [configFails_eq, decide_eq_false (by omega), Bool.and_false]
  have hseq : sequenceFails i s = true := by
    rw [sequenceFails_finishing hi, hphase]
    rfl
  rw [check, hconfig, hseq]
  rfl

section

variable {s : State} {w : Word} {wstrb : BitVec 4}

theorem writeKey_of_open (h : s.phase ≠ .idle) (hstrb : wstrb ≠ 0#4) (i : Nat) :
    writeKey i w wstrb s = closeChain { s with key := writeLanes keySet i w wstrb s.key } := by
  rw [writeKey, if_neg hstrb]
  exact abortChain_of_open h

/-- A CTRL write that changes KEYSIZE closes an open chain (42_s2v.md R207). -/
theorem writeCtrl_of_open (h : s.phase ≠ .idle) (hlane : wstrb.getLsbD 0 = true)
    (hsize : w.extractLsb' 1 2 ≠ s.keysize) :
    writeCtrl w wstrb s = closeChain { s with irqEn := w.getLsbD 0, keysize := w.extractLsb' 1 2 } := by
  have hmerge : mergeCtrl w wstrb s = { s with irqEn := w.getLsbD 0, keysize := w.extractLsb' 1 2 } := by
    simp only [mergeCtrl, hlane, if_true]
  rw [writeCtrl_eq, hmerge, if_neg hsize]
  exact abortChain_of_open h

/-- A CTRL write that keeps KEYSIZE, or does not strobe its lane, keeps the chain. -/
theorem writeCtrl_keeps_chain (h : wstrb.getLsbD 0 = true → w.extractLsb' 1 2 = s.keysize) :
    (writeCtrl w wstrb s).phase = s.phase ∧ (writeCtrl w wstrb s).acc = s.acc := by
  have hsize : (mergeCtrl w wstrb s).keysize = s.keysize := by
    rw [mergeCtrl]
    dsimp only
    split
    · next hlane => exact h hlane
    · rfl
  rw [writeCtrl_eq, if_pos hsize]
  exact ⟨rfl, rfl⟩

/-- Of the writes at rest only those of KEY and CTRL can move the chain. -/
theorem writeIdle_keeps_chain {l : Loc} (hkey : ∀ i, l = .key i → wstrb = 0#4)
    (hctrl : l = .ctrl → wstrb.getLsbD 0 = true → w.extractLsb' 1 2 = s.keysize) :
    (writeIdle l w wstrb s).phase = s.phase ∧ (writeIdle l w wstrb s).acc = s.acc := by
  cases l with
  | ctrl => exact writeCtrl_keeps_chain (hctrl rfl)
  | key i =>
    rw [writeIdle, writeKey, if_pos (hkey i rfl)]
    exact ⟨rfl, rfl⟩
  | id | cmd | status | len | outlen | caps | iv | result | acc | ibuf | obuf | reserved => exact ⟨rfl, rfl⟩

/-- A write that is none of the two of 42_s2v.md R207 keeps the chain. -/
theorem busWrite_keeps_chain {addr : BitVec 14} (h : ¬ closesOpenChain addr w wstrb s) :
    (busWrite addr w wstrb s).phase = s.phase ∧ (busWrite addr w wstrb s).acc = s.acc := by
  rcases busWrite_cases addr w wstrb s with ⟨-, he⟩ | ⟨-, hb, -⟩ | ⟨hf, hb, he⟩
  · rw [he]
    exact ⟨rfl, rfl⟩
  · obtain ⟨_, _, _, _, he⟩ := onlyW1cMoved_busWrite hb addr w wstrb
    rw [he]
    exact ⟨rfl, rfl⟩
  · have h4 : addr.toNat % 4 = 0 := by
      by_contra hmis
      rw [(writeFails_iff addr wstrb).2 (.inl hmis)] at hf
      cases hf
    rw [he]
    refine writeIdle_keeps_chain (fun i hl => ?_) fun hl hlane => ?_
    · obtain ⟨lo, hi⟩ := key_region_of_locate hl
      by_contra hstrb
      exact h ⟨hb, h4, .inl ⟨lo, hi, hstrb⟩⟩
    · have haddr : addr = 0x004#14 := BitVec.eq_of_toNat_eq ((locate_ctrl_iff _).1 hl)
      by_contra hsize
      exact h ⟨hb, h4, .inr ⟨haddr, hlane, hsize⟩⟩

/-- A KEY write at rest, by the address of its word. -/
theorem busWrite_key {addr : BitVec 14} (hb : s.busy = false) (h4 : addr.toNat % 4 = 0) (lo : 0x020 ≤ addr.toNat)
    (hi : addr.toNat < 0x060) :
    busWrite addr w wstrb s = writeKey (4 * ((addr.toNat - 0x020) / 4)) w wstrb s := by
  rw [busWrite_of_rest (writeFails_of_aligned h4 (by omega)) hb, locate_key lo hi,
    show 4 * ((addr.toNat - 0x020) / 4) = addr.toNat - 0x020 by omega]
  rfl

end

/-- Settles O52: the two closing writes are `writeKey_of_open` and `writeCtrl_of_open`, and every other write is
`busWrite_keeps_chain`. -/
theorem chainAbort : Obligations.ChainAbort := by
  rintro s t addr w wstrb hopen rfl
  refine ⟨?_, busWrite_keeps_chain⟩
  rintro ⟨hb, h4, ⟨lo, hi, hstrb⟩ | ⟨rfl, hlane, hsize⟩⟩
  · have hne : addr ≠ 0x004#14 := by
      rintro rfl
      exact absurd lo (by decide)
    rw [busWrite_key hb h4 lo hi, writeKey_of_open hopen hstrb, if_neg hne, if_neg hne]
    refine ⟨rfl, rfl, fun j hj => ?_, rfl, rfl, fun hk i hi => check_finishing_of_idle hi hk rfl⟩
    refine (getD_writeLanes_keySet s.key _ w wstrb hj).trans (if_congr (and_congr_left' ?_) rfl rfl)
    omega
  · rw [busWrite_ctrl hb, writeCtrl_of_open hopen hlane hsize, if_pos rfl, if_pos rfl]
    refine ⟨rfl, rfl, fun j hj => ?_, rfl, rfl, fun hk i hi => check_finishing_of_idle hi hk rfl⟩
    exact (if_neg fun ⟨haddr, _⟩ => absurd haddr (by rw [BitVec.toNat_ofNat]; omega)).symm

/-! ### The chain of commands -/

/-- The state in which a command on a byte string takes its completion step. -/
def issuedOn (i : Instr) (bs : List Byte) (s : State) : State := issue (encode i) (presentInput bs s)

theorem runOn_eq (i : Instr) (bs : List Byte) (s : State) : runOn i bs s = nextOf (exec i (issuedOn i bs s)) := rfl

section

variable (i : Instr) {bs : List Byte} {s : State}

theorem len_issuedOn (h : bs.length ≤ bufBytes) : (issuedOn i bs s).len.toNat = bs.length := by
  obtain ⟨-, hmax, -⟩ := bufBytes_bounds
  exact Nat.mod_eq_of_lt (by omega)

theorem wf_issuedOn (hwf : Memory.wf s.ibuf = true) : Memory.wf (issuedOn i bs s).ibuf = true :=
  wf_storeBytes hwf 0 bs

/-- The command's input is the string it is run on. -/
theorem input_issuedOn (hwf : Memory.wf s.ibuf = true) (h : bs.length ≤ bufBytes) :
    readBytes (issuedOn i bs s).ibuf 0 (issuedOn i bs s).len.toNat = bs := by
  rw [len_issuedOn i h]
  exact readBytes_storeBytes hwf 0 bs

end

/-- What a chain begun in `s` keeps from command to command: the key and a canonical IBUF, with the chain in phase `p`
and `d` in ACC. -/
structure ChainAt (s : State) (p : Phase) (d : Block) (t : State) : Prop where
  keysize : t.keysize = s.keysize
  key : t.key = s.key
  ibuf : Memory.wf t.ibuf = true
  phase : t.phase = p
  acc : t.acc = d

theorem ChainAt.key1_eq {s t : State} {p : Phase} {d : Block} (h : ChainAt s p d t) : key1 t = key1 s :=
  key1_congr h.keysize h.key

/-- Presenting an input and issuing a command leave the chain. -/
theorem ChainAt.issued {s t : State} {p : Phase} {d : Block} (h : ChainAt s p d t) (i : Instr) (bs : List Byte) :
    ChainAt s p d (issuedOn i bs t) :=
  ⟨h.keysize, h.key, wf_issuedOn i h.ibuf, h.phase, h.acc⟩

section

variable {s : State} (hsize : s.keysize.toNat ≤ 1)
include hsize

theorem runCommand_s2vInit (hwf : Memory.wf s.ibuf = true) :
    ∃ t, runCommand .s2vInit s = some t ∧ ChainAt s .ad (s2vStart Config.aesEnc (key1 s)) t := by
  rw [runCommand, (s2vInitCompletes (issue (encode .s2vInit) s)).1 hsize]
  exact ⟨_, rfl, rfl, rfl, hwf, rfl, rfl⟩

section

variable {p : Phase} {d : Block} {t : State} {bs : List Byte} (hbs : bs.length ≤ bufBytes)
include hbs

theorem runOn_s2vAd (h : ChainAt s .ad d t) :
    ∃ u, runOn .s2vAd bs t = some u ∧ ChainAt s .ad (s2vFold Config.aesEnc (key1 s) d bs) u := by
  have hi : ChainAt s .ad d (issuedOn .s2vAd bs t) := h.issued _ _
  have hexec := (s2vAdCompletes (issuedOn .s2vAd bs t)).1 (hi.keysize ▸ hsize) hi.phase
    ((len_issuedOn _ hbs).trans_le hbs)
  rw [input_issuedOn _ h.ibuf hbs, hi.acc, hi.key1_eq] at hexec
  rw [runOn_eq, hexec]
  exact ⟨_, rfl, hi.keysize, hi.key, hi.ibuf, hi.phase, rfl⟩

/-- S2V_NONCE leaves the chain open with the nonce folded, if there is one (42_s2v.md R203). -/
theorem runOn_s2vNonce (h : ChainAt s .ad d t) :
    ∃ u p, runOn .s2vNonce bs t = some u ∧ p ≠ .idle ∧
      ChainAt s p ((if bs.length = 0 then [] else [bs]).foldl (s2vFold Config.aesEnc (key1 s)) d) u := by
  have hi : ChainAt s .ad d (issuedOn .s2vNonce bs t) := h.issued _ _
  have hlen : (issuedOn .s2vNonce bs t).len.toNat = bs.length := len_issuedOn _ hbs
  obtain ⟨hfold, hempty, -⟩ := s2vNonceCompletes (issuedOn .s2vNonce bs t)
  rw [runOn_eq]
  by_cases h0 : bs.length = 0
  · rw [if_pos h0, hempty (hi.keysize ▸ hsize) hi.phase (BitVec.eq_of_toNat_eq (hlen.trans h0))]
    exact ⟨_, .ad, rfl, by decide, hi.keysize, hi.key, hi.ibuf, hi.phase, hi.acc⟩
  · have hexec := hfold (hi.keysize ▸ hsize) hi.phase (by omega) (by omega)
    rw [input_issuedOn _ h.ibuf hbs, hi.acc, hi.key1_eq] at hexec
    rw [if_neg h0, hexec]
    exact ⟨_, .nonceDone, rfl, by decide, hi.keysize, hi.key, hi.ibuf, rfl, rfl⟩

theorem runOn_s2vFinal (hopen : p ≠ .idle) (h : ChainAt s p d t) :
    ∃ u, runOn .s2vFinal bs t = some u ∧ u.errcode = .noError ∧
      u.result = s2vFinal Config.aesEnc (key1 s) d bs ∧ u.phase = .idle ∧ u.acc = 0#128 := by
  have hi : ChainAt s p d (issuedOn .s2vFinal bs t) := h.issued _ _
  have hexec := (s2vFinalCompletes (issuedOn .s2vFinal bs t)).1 (hi.keysize ▸ hsize) (hi.phase ▸ hopen)
    ((len_issuedOn _ hbs).trans_le hbs)
  rw [input_issuedOn _ h.ibuf hbs, hi.acc, hi.key1_eq] at hexec
  rw [runOn_eq, hexec]
  exact ⟨_, rfl, rfl, rfl, rfl, rfl⟩

end

/-- By induction on the strings, each S2V_AD folds its own. -/
theorem runOn_s2vAds {ads : List (List Byte)} (hads : ∀ a ∈ ads, a.length ≤ bufBytes) {d : Block} {t : State}
    (h : ChainAt s .ad d t) :
    ∃ u, ads.foldlM (fun s a => runOn .s2vAd a s) t = some u ∧
      ChainAt s .ad (ads.foldl (s2vFold Config.aesEnc (key1 s)) d) u := by
  induction ads generalizing d t with
  | nil => exact ⟨t, rfl, h⟩
  | cons a ads ih =>
    obtain ⟨ha, hads⟩ := List.forall_mem_cons.1 hads
    obtain ⟨u, hu, hchain⟩ := runOn_s2vAd hsize ha h
    rw [List.foldlM_cons, hu]
    exact ih hads hchain

/-- The chain of commands leaves the chain open with the strings of the chain folded into ACC. -/
theorem runChain_folds (hwf : Memory.wf s.ibuf = true) {ads : List (List Byte)} {nonce : List Byte}
    (hads : ∀ a ∈ ads, a.length ≤ bufBytes) (hnonce : nonce.length ≤ bufBytes) :
    ∃ t p, runChain ads nonce s = some t ∧ p ≠ .idle ∧
      ChainAt s p ((chainStrings ads nonce).foldl (s2vFold Config.aesEnc (key1 s))
        (s2vStart Config.aesEnc (key1 s))) t := by
  obtain ⟨t, hinit, ht⟩ := runCommand_s2vInit hsize hwf
  obtain ⟨u, hfold, hu⟩ := runOn_s2vAds hsize hads ht
  rw [runChain, hinit, Option.bind_eq_bind, Option.bind_some, hfold, chainStrings, List.foldl_append]
  exact runOn_s2vNonce hsize hnonce hu

end

/-- Settles O58: the chain of commands folds the strings into ACC (`runChain_folds`), and S2V_FINAL finishes with the
payload. -/
theorem chainComputesS2v : Obligations.ChainComputesS2v := by
  intro s ads nonce p hinv hsize hads hnonce hp
  obtain ⟨hwf, -⟩ := hinv.settled.buffers
  obtain ⟨t, q, hrun, hopen, ht⟩ := runChain_folds hsize hwf hads hnonce
  obtain ⟨u, hfinal, hu⟩ := runOn_s2vFinal hsize hp hopen ht
  exact ⟨t, u, hrun, hfinal, hu⟩

end Sys2Proof.Machine

/-! The SIV family (43_siv.md): the mask (R230), the counter (R231), CTR byte by byte (R232), the comparison of the two
SIVs and the commands CTR, SIV_ENC and SIV_DEC (R234 to R236), what an unverified SIV_DEC shows (R237), and the round
trip (R238). -/

namespace Sys2Proof.Machine

/-! ### The mask and the counter -/

theorem getLsbD_mask (v : Block) {j : Nat} (hj : j < 128) :
    (mask v).getLsbD j = (v.getLsbD j && decide (j ≠ 63) && decide (j ≠ 31)) := by
  have hbits : ∀ j < 128, (~~~0x00000000000000008000000080000000#128).getLsbD j =
      (decide (j ≠ 63) && decide (j ≠ 31)) := by decide
  rw [mask, BitVec.getLsbD_and, hbits j hj, Bool.and_assoc]

theorem mask_mask (v : Block) : mask (mask v) = mask v := by
  rw [mask, mask, BitVec.and_assoc, BitVec.and_self]

/-- Settles O37: the mask byte by byte (`blockByte_mask`) and bit by bit (`getLsbD_mask`). -/
theorem maskClearsBits63And31 : Obligations.MaskClearsBits63And31 :=
  ⟨fun v => ⟨fun _ hi => blockByte_mask v hi, fun _ hj => getLsbD_mask v hj, mask_mask v⟩, by decide⟩

theorem toNat_counterBlock (c : Block) (i : Nat) : (counterBlock c i).toNat = (c.toNat + i) % 2 ^ 128 := by
  rw [counterBlock, BitVec.toNat_add, BitVec.toNat_ofNat, Nat.add_mod_mod]

/-- With bit 31 clear, the low 32 bits of a masked block leave room for 2^31 blocks (43_siv.md R231). -/
theorem toNat_mask_mod (v : Block) : (mask v).toNat % 2 ^ 32 < 2 ^ 31 := by
  have hbit : (mask v).toNat.testBit 31 = false := by
    rw [BitVec.testBit_toNat, getLsbD_mask v (by decide)]
    exact Bool.and_false _
  rw [Nat.testBit_eq_decide_div_mod_eq, decide_eq_false_iff_not] at hbit
  omega

/-- Settles O38: adding an index below 256 to a masked block cannot carry out of the low 32 bits (`toNat_mask_mod`). -/
theorem counterCountsTheWholeBlock : Obligations.CounterCountsTheWholeBlock := by
  refine ⟨toNat_counterBlock, fun v i hi => ?_⟩
  have hroom : (mask v).toNat % 2 ^ 32 < 2 ^ 31 := toNat_mask_mod v
  have hlt : (mask v).toNat < 2 ^ 128 := (mask v).isLt
  rw [toNat_counterBlock]
  omega

/-! ### CTR byte by byte -/

/-- Byte `j` of a string cut into blocks of 16 bytes, the last one short, is byte `j mod 16` of block `j div 16`. -/
theorem getD_flatMap_blocks {f : Nat → List Byte} {len : Nat} (hf : ∀ i, (f i).length = min 16 (len - 16 * i))
    (n : Nat) {j : Nat} (hj : j < min (16 * n) len) :
    ((List.range n).flatMap f).getD j 0#8 = (f (j / 16)).getD (j % 16) 0#8 := by
  induction n with
  | zero => omega
  | succ n ih =>
    have hlen : ((List.range n).flatMap f).length = min (16 * n) len := by
      rw [List.length_flatMap, List.map_congr_left fun i _ => hf i, sum_block_lengths]
    rw [List.range_succ, List.flatMap_append, List.flatMap_singleton]
    by_cases hlt : j < min (16 * n) len
    · rw [List.getD_append _ _ _ _ (hlen ▸ hlt), ih hlt]
    · rw [List.getD_append_right _ _ _ _ (by omega), hlen, show j / 16 = n by omega,
        show j - min (16 * n) len = j % 16 by omega]

theorem getD_slice (s : List Byte) {a b i : Nat} (hi : i < (slice s a b).length) :
    (slice s a b).getD i 0#8 = s.getD (a + i) 0#8 := by
  rw [List.getD_eq_getElem _ _ hi, getElem_slice, List.getD_eq_getElem]

theorem getD_take (s : List Byte) {n i : Nat} (hi : i < n) : (s.take n).getD i 0#8 = s.getD i 0#8 := by
  rw [List.getD_eq_getElem?_getD, List.getElem?_take_of_lt hi, ← List.getD_eq_getElem?_getD]

/-- Each byte takes the keystream byte of its place (43_siv.md R232). -/
theorem getD_ctr (enc : BlockCipher) (k : List Byte) (c : Block) (x : List Byte) {i : Nat} (hi : i < x.length) :
    (ctr enc k c x).getD i 0#8 = x.getD i 0#8 ^^^ blockByte (enc k (counterBlock c (i / 16))) (i % 16) := by
  have hj : i % 16 < min 16 (x.length - 16 * (i / 16)) := by omega
  have hslice : i % 16 < (slice x (16 * (i / 16)) (16 * (i / 16) + min 16 (x.length - 16 * (i / 16)))).length := by
    rw [length_slice]
    omega
  rw [ctr, getD_flatMap_blocks (fun i => length_ctrBlock x _ i) _ (by omega),
    getD_xorBytes hslice (by rw [List.length_take, length_bytesOfBlock]; omega), getD_slice x hslice,
    Nat.div_add_mod, getD_take _ hj, getD_bytesOfBlock _ (by omega)]

/-- CTR is its own inverse: each byte takes the same keystream byte twice. -/
theorem ctr_ctr (enc : BlockCipher) (k : List Byte) (c : Block) (x : List Byte) : ctr enc k c (ctr enc k c x) = x := by
  refine List.ext_getElem (by rw [length_ctr, length_ctr]) fun i h hi => ?_
  rw [← List.getD_eq_getElem _ 0#8 h, getD_ctr enc k c _ (by rwa [length_ctr]), getD_ctr enc k c x hi,
    BitVec.xor_assoc, BitVec.xor_self, BitVec.xor_zero, List.getD_eq_getElem _ _ hi]

/-- Settles O39 by `length_ctr`, `getD_ctr` and `ctr_ctr`. -/
theorem ctrIsBytewiseAndSelfInverse : Obligations.CtrIsBytewiseAndSelfInverse :=
  fun enc k c x => ⟨length_ctr enc k c x, fun _ hi => getD_ctr enc k c x hi, ctr_ctr enc k c x⟩

/-! ### The comparison of the two SIVs -/

theorem foldl_or_eq_zero_iff (f : Nat → Byte) (l : List Nat) (d : Byte) :
    l.foldl (fun d i => d ||| f i) d = 0#8 ↔ d = 0#8 ∧ ∀ i ∈ l, f i = 0#8 := by
  induction l generalizing d with
  | nil => simp
  | cons a l ih => rw [List.foldl_cons, ih, BitVec.or_eq_zero_iff, List.forall_mem_cons, and_assoc]

/-- The OR of the byte differences sees every bit (43_siv.md R236). -/
theorem tagDiff_eq_zero_iff (v v' : Block) : tagDiff v v' = 0#8 ↔ v = v' := by
  rw [tagDiff, foldl_or_eq_zero_iff]
  constructor
  · rintro ⟨-, hbytes⟩
    exact block_ext fun i hi => BitVec.xor_eq_zero_iff.1 (hbytes i (List.mem_range.2 hi))
  · rintro rfl
    exact ⟨rfl, fun _ _ => BitVec.xor_self⟩

theorem sivDecEffect_of_verified (enc : BlockCipher) {s : State} (h : receivedSiv s = recomputedSiv enc s) :
    sivDecEffect enc s =
      { closeChain s with
        obuf := storeBytes s.obuf 0 (candidatePlaintext enc s)
        outlen := s.len - 16#32
        result := receivedSiv s
        outValid := true } :=
  if_pos ((tagDiff_eq_zero_iff _ _).2 h)

theorem sivDecEffect_of_unverified (enc : BlockCipher) {s : State} (h : receivedSiv s ≠ recomputedSiv enc s) :
    sivDecEffect enc s = takeError .auth (closeChain s) :=
  if_neg (mt (tagDiff_eq_zero_iff _ _).1 h)

theorem sivDecEffect_auth_iff (enc : BlockCipher) {s : State} (hs : s.errcode ≠ .auth) :
    (sivDecEffect enc s).errcode = .auth ↔ receivedSiv s ≠ recomputedSiv enc s := by
  by_cases h : receivedSiv s = recomputedSiv enc s
  · rw [sivDecEffect_of_verified enc h]
    exact iff_of_false hs (not_not.2 h)
  · rw [sivDecEffect_of_unverified enc h]
    exact iff_of_true rfl h

/-- Settles O30: a failed check has a code of its own (`check_ne_auth`), the effect of another command keeps ERRCODE
(`effectOf_errcode`), and that of SIV_DEC sets AUTH exactly when the SIVs differ. -/
theorem authOnlyFromSivDec : Obligations.AuthOnlyFromSivDec := by
  refine ⟨fun i s t h hs => ?_, tagDiff_eq_zero_iff⟩
  rcases exec_cases i s with ⟨hc, he⟩ | ⟨hc, he⟩ <;> rw [he] at h <;> cases h
  · by_cases hi : i = .sivDec
    · subst hi
      exact (sivDecEffect_auth_iff Config.aesEnc hs).trans (by simp only [hc, true_and])
    · rw [finish_errcode, effectOf_errcode hi]
      exact iff_of_false hs fun ⟨hdec, _⟩ => hi hdec
  · exact iff_of_false (check_ne_auth i s) fun ⟨_, hpass, _⟩ => hc hpass

/-! ### The commands -/

/-- Settles O20: CTR is checked for KEYSIZE and LEN in every PHASE (`check_cmac_ctr`). -/
theorem ctrCompletes : Obligations.CtrCompletes := by
  intro s
  have hcheck := check_cmac_ctr s (.inr rfl : Instr.ctr = .cmac ∨ Instr.ctr = .ctr)
  obtain ⟨hpass, hconfig, -, hlength⟩ := exec_of_chain_check (bad := False) (by rw [hcheck, if_false])
  exact ⟨fun hsize => hpass hsize not_false, hconfig, fun hsize => hlength hsize not_false⟩

/-- An output that fits OBUF has a length that OUTLEN can hold, with no wrap (43_siv.md R235). -/
theorem toNat_ofNat_of_le_obufBytes {n : Nat} (h : n ≤ obufBytes) : (BitVec.ofNat 32 n).toNat = n := by
  obtain ⟨-, hmax, -⟩ := bufBytes_bounds
  rw [obufBytes] at h
  exact Nat.mod_eq_of_lt (by omega)

/-- Settles O21: past its check (`check_finish`) the effect writes the outputs and closes the chain. -/
theorem sivEncCompletes : Obligations.SivEncCompletes := by
  intro s
  obtain ⟨hpass, herrors⟩ := exec_of_chain_check (check_finish s (.inr rfl : _ ∨ Instr.sivEnc = _))
  refine ⟨fun hsize hphase hlen => ⟨_, _, rfl, rfl, ?_, toNat_ofNat_of_le_obufBytes ?_⟩, herrors⟩
  · rw [hpass hsize hphase hlen, BitVec.ofNat_add, BitVec.ofNat_toNat, BitVec.setWidth_eq]
    rfl
  · rw [obufBytes]
    omega

/-- The plaintext of SIV_DEC is 16 bytes shorter than its input (43_siv.md R236). -/
theorem toNat_sub_16 {w : Word} (h : 16 ≤ w.toNat) : (w - 16#32).toNat = w.toNat - 16 := BitVec.toNat_sub_of_le h

/-- Settles O22: past its check (`check_sivDec`) the two outcomes of the comparison. -/
theorem sivDecCompletes : Obligations.SivDecCompletes := by
  intro s
  obtain ⟨hbuf, -⟩ := bufBytes_bounds
  refine ⟨fun hsize hphase hmin hlen => ?_,
    fun hsize => exec_of_error (by rw [check_sivDec, if_pos hsize]) (by decide),
    fun hsize hphase => exec_of_error (by rw [check_sivDec, if_neg (by omega), if_pos hphase]) (by decide),
    fun hsize hphase hlen => exec_of_error
      (by rw [check_sivDec, if_neg (by omega), if_neg hphase, if_pos hlen]) (by decide),
    fun hsize hphase hmin => exec_of_error
      (by rw [check_sivDec, if_neg (by omega), if_neg hphase, if_neg (by omega), if_pos hmin]) (by decide)⟩
  have hcheck : check .sivDec s = .noError := by
    rw [check_sivDec, if_neg (by omega), if_neg hphase, if_neg (by omega), if_neg (by omega)]
  have houtlen : BitVec.ofNat 32 (s.len.toNat - 16) = s.len - 16#32 := by
    rw [← toNat_sub_16 hmin, BitVec.ofNat_toNat, BitVec.setWidth_eq]
  refine ⟨_, _, _, rfl, rfl, rfl, fun heq => ?_, fun hne => ?_⟩
  · rw [exec_of_noError hcheck, effectOf, sivDecEffect_of_verified Config.aesEnc heq, houtlen]
    rfl
  · rw [exec_of_noError hcheck, effectOf, sivDecEffect_of_unverified Config.aesEnc hne]
    rfl

/-! ### The bytes of OBUF -/

/-- What a stored CTR output reads as: the input's bytes xored with the keystream, everything else as before. -/
theorem read_storeBytes_ctr {m : Memory} (h : Memory.wf m = true) (enc : BlockCipher) (k : List Byte) (c : Block)
    (src : Memory) (base off n a : Nat) :
    Memory.read (storeBytes m base (ctr enc k c (readBytes src off n))) a =
      if base ≤ a ∧ a < base + n then
        Memory.read src (off + (a - base)) ^^^ blockByte (enc k (counterBlock c ((a - base) / 16))) ((a - base) % 16)
      else Memory.read m a := by
  rw [read_storeBytes h, length_ctr, length_readBytes]
  split
  · next hin =>
    rw [getD_ctr _ _ _ _ (by rw [length_readBytes]; omega), getD_readBytes _ _ (by omega)]
  · rfl

/-- Settles O24: what each command stores is its completed state's OBUF (O20 to O22), read by `read_storeBytes_ctr`. -/
theorem outputBytesOfObuf : Obligations.OutputBytesOfObuf := by
  intro s hwf hsize hlen
  refine ⟨⟨_, (ctrCompletes s).1 hsize hlen, fun a => ?_⟩, fun hphase => ?_, fun hphase hmin => ?_⟩
  · rw [read_storeBytes_ctr hwf]
    simp
  · obtain ⟨v, t, hv, ht, hexec, -⟩ := (sivEncCompletes s).1 hsize hphase hlen
    refine ⟨t, v, hexec, hv, fun a => ?_⟩
    rw [ht, read_storeBytes_ctr (wf_storeBytes hwf 0 _), read_storeBytes hwf, length_bytesOfBlock]
    by_cases h16 : a < 16
    · rw [if_neg (by omega), if_pos (by omega), if_pos h16, Nat.sub_zero, getD_bytesOfBlock v h16]
    · rw [if_neg h16, if_neg (by omega : ¬(0 ≤ a ∧ a < 0 + 16)), Nat.zero_add]
      exact if_congr (and_iff_right (Nat.le_of_not_lt h16)) rfl rfl
  · obtain ⟨v, p, v', hv, hp, hv', hverified, hunverified⟩ := (sivDecCompletes s).1 hsize hphase hmin hlen
    have hsivs : receivedSiv s = recomputedSiv Config.aesEnc s ↔ v = v' := by
      rw [hv', hp, hv]
      rfl
    by_cases heq : v = v'
    · refine ⟨_, v, hverified heq, hv, fun a => ?_⟩
      rw [hp, read_storeBytes_ctr hwf]
      simp [hsivs, heq]
    · refine ⟨_, v, hunverified heq, hv, fun a => ?_⟩
      rw [if_neg fun ⟨hver, _⟩ => heq (hsivs.1 hver)]

/-! ### Nothing unverified is released -/

/-- SIV_DEC passes its check on at least 16 bytes only (60_exceptions.md R272). -/
theorem len_ge_of_check_sivDec {s : State} (hc : check .sivDec s = .noError) : 16 ≤ s.len.toNat := by
  obtain ⟨-, -, -, hmal⟩ := (check_noError_iff .sivDec s).1 hc
  exact Nat.not_lt.1 (of_decide_eq_false hmal)

/-- Settles O31: a command in flight shows no output (10_state.md R46), and SIV_DEC adds one only if the SIV verifies. -/
theorem unverifiedPlaintextIsNeverReleased : Obligations.UnverifiedPlaintextIsNeverReleased := by
  intro s hinv hbusy hc
  obtain ⟨-, -, hquiet, -⟩ := hinv
  obtain ⟨-, herr, hvalid, houtlen, hresult, hobuf⟩ := hquiet hbusy
  refine ⟨_, exec_of_noError hc, ?_⟩
  by_cases h : receivedSiv s = recomputedSiv Config.aesEnc s
  · have hlen : (s.len - 16#32).toNat = (candidatePlaintext Config.aesEnc s).length := by
      rw [toNat_sub_16 (len_ge_of_check_sivDec hc), length_candidatePlaintext]
    have hplain : readBytes (storeBytes s.obuf 0 (candidatePlaintext Config.aesEnc s)) 0 (s.len - 16#32).toNat =
        candidatePlaintext Config.aesEnc s := by
      rw [hlen, readBytes_storeBytes (hobuf ▸ Memory.wf_nil)]
    rw [effectOf, sivDecEffect_of_verified Config.aesEnc h]
    exact ⟨rfl, rfl, iff_of_true rfl h, absurd h, fun _ => ⟨herr, rfl, hplain⟩⟩
  · have hread (a : Nat) : Memory.read s.obuf a = 0#8 := by rw [hobuf, Memory.read_nil]
    have hnot : s.outValid ≠ true := by rw [hvalid]; decide
    rw [effectOf, sivDecEffect_of_unverified Config.aesEnc h]
    exact ⟨rfl, rfl, iff_of_false hnot h, fun _ => ⟨rfl, hvalid, houtlen, hresult, hread⟩, fun hv => absurd hv hnot⟩

/-! ### The round trip -/

theorem storeBytes_append (m : Memory) (a : Nat) (bs cs : List Byte) :
    storeBytes m a (bs ++ cs) = storeBytes (storeBytes m a bs) (a + bs.length) cs := by
  induction bs generalizing m a with
  | nil => rfl
  | cons b bs ih =>
    rw [List.cons_append, storeBytes, ih, storeBytes, List.length_cons, Nat.add_assoc, Nat.add_comm 1]

theorem readBytes_add (m : Memory) (a n n' : Nat) :
    readBytes m a (n + n') = readBytes m a n ++ readBytes m (a + n) n' := by
  simp only [readBytes, List.range_add, List.map_append, List.map_map, Function.comp_def, Nat.add_assoc]

theorem ChainAt.key2_eq {s t : State} {p : Phase} {d : Block} (h : ChainAt s p d t) : key2 t = key2 s :=
  key2_congr h.keysize h.key

/-- A chain begun after a command that kept the key is a chain of the state before it. -/
theorem ChainAt.trans {s t u : State} {p q : Phase} {d e : Block} (h : ChainAt s p d t) (h' : ChainAt t q e u) :
    ChainAt s q e u :=
  ⟨h'.keysize.trans h.keysize, h'.key.trans h.key, h'.ibuf, h'.phase, h'.acc⟩

/-- What SIV_ENC releases for a plaintext, from a chain that holds `d`: the SIV and the ciphertext (43_siv.md R235). -/
def sealedBytes (enc : BlockCipher) (s : State) (d : Block) (p : List Byte) : List Byte :=
  bytesOfBlock (s2vFinal enc (key1 s) d p) ++ ctr enc (key2 s) (mask (s2vFinal enc (key1 s) d p)) p

theorem length_sealedBytes (enc : BlockCipher) (s : State) (d : Block) (p : List Byte) :
    (sealedBytes enc s d p).length = 16 + p.length := by
  rw [sealedBytes, List.length_append, length_bytesOfBlock, length_ctr]

section

variable {s t : State} (hsize : s.keysize.toNat ≤ 1) {q : Phase} (hopen : q ≠ .idle) {d : Block}
  (h : ChainAt s q d t) {p : List Byte}
include hsize hopen h

/-- SIV_ENC releases the sealed plaintext and keeps the key. -/
theorem runOn_sivEnc (hp : p.length ≤ bufBytes) :
    ∃ u, runOn .sivEnc p t = some u ∧ releasedOutput u = sealedBytes Config.aesEnc s d p ∧
      ChainAt s .idle 0#128 u := by
  have hi : ChainAt s q d (issuedOn .sivEnc p t) := h.issued _ _
  have hlen : (issuedOn .sivEnc p t).len.toNat = p.length := len_issuedOn _ hp
  obtain ⟨v, u, hv, hu, hexec, houtlen⟩ := (sivEncCompletes (issuedOn .sivEnc p t)).1 (hi.keysize ▸ hsize)
    (hi.phase ▸ hopen) (hlen.trans_le hp)
  rw [input_issuedOn _ h.ibuf hp, hi.acc, hi.key1_eq] at hv
  rw [input_issuedOn _ h.ibuf hp, hi.key2_eq, hv] at hu
  have hobuf : u.obuf = storeBytes [] 0 (sealedBytes Config.aesEnc s d p) := by
    rw [hu, sealedBytes, storeBytes_append, length_bytesOfBlock]
    rfl
  refine ⟨u, by rw [runOn_eq, hexec]; rfl, ?_, ?_⟩
  · rw [releasedOutput, hobuf, houtlen, hlen, ← length_sealedBytes Config.aesEnc s d p,
      readBytes_storeBytes Memory.wf_nil]
  · rw [hu]
    exact ⟨hi.keysize, hi.key, hi.ibuf, rfl, rfl⟩

/-- SIV_DEC of the sealed plaintext reads back the SIV and the ciphertext, so it verifies and releases the plaintext. -/
theorem runOn_sivDec_sealedBytes (hp : p.length + 16 ≤ bufBytes) :
    ∃ u, runOn .sivDec (sealedBytes Config.aesEnc s d p) t = some u ∧ u.errcode = .noError ∧ u.outValid = true ∧
      releasedOutput u = p := by
  have hi : ChainAt s q d (issuedOn .sivDec (sealedBytes Config.aesEnc s d p) t) := h.issued _ _
  have hfits : (sealedBytes Config.aesEnc s d p).length ≤ bufBytes := by
    rw [length_sealedBytes]
    omega
  have hlen : (issuedOn .sivDec (sealedBytes Config.aesEnc s d p) t).len.toNat = 16 + p.length :=
    (len_issuedOn _ hfits).trans (length_sealedBytes Config.aesEnc s d p)
  have hinput := input_issuedOn .sivDec h.ibuf hfits
  rw [hlen, readBytes_add] at hinput
  obtain ⟨hsiv, hcipher⟩ := List.append_inj hinput (by rw [length_readBytes, length_bytesOfBlock])
  obtain ⟨v, p', v', hv, hp', hv', hverified, -⟩ :=
    (sivDecCompletes (issuedOn .sivDec (sealedBytes Config.aesEnc s d p) t)).1 (hi.keysize ▸ hsize)
      (hi.phase ▸ hopen) (by omega) (by omega)
  rw [hsiv, blockOfBytes_bytesOfBlock] at hv
  rw [hlen, Nat.add_sub_cancel_left, hcipher, hi.key2_eq, hv, ctr_ctr] at hp'
  rw [hi.acc, hi.key1_eq, hp', ← hv] at hv'
  have houtput : readBytes (storeBytes [] 0 p) 0 (BitVec.ofNat 32 p.length).toNat = p := by
    rw [toNat_ofNat_of_le_obufBytes (by rw [obufBytes]; omega), readBytes_storeBytes Memory.wf_nil]
  rw [runOn_eq, hverified hv'.symm, hp', hlen, Nat.add_sub_cancel_left]
  exact ⟨_, rfl, rfl, rfl, houtput⟩

end

/-- Settles O59: the two chains fold the same strings into ACC (`runChain_folds`), since SIV_ENC keeps the key, so
SIV_DEC takes back what SIV_ENC sealed. -/
theorem decryptUndoesEncrypt : Obligations.DecryptUndoesEncrypt := by
  intro s ads nonce p hinv hsize hads hnonce hp
  obtain ⟨hwf, -⟩ := hinv.settled.buffers
  obtain ⟨t, q, hchain, hopen, ht⟩ := runChain_folds hsize hwf hads hnonce
  obtain ⟨u, henc, hout, hu⟩ := runOn_sivEnc hsize hopen ht (p := p) (by omega)
  obtain ⟨t', q', hchain', hopen', ht'⟩ := runChain_folds (hu.keysize ▸ hsize) hu.ibuf hads hnonce
  rw [hu.key1_eq] at ht'
  obtain ⟨u', hdec, hresult⟩ := runOn_sivDec_sealedBytes hsize hopen' (hu.trans ht') hp
  rw [← hout] at hdec
  exact ⟨t, u, t', u', hchain, henc, hout ▸ length_sealedBytes Config.aesEnc s _ p, hchain', hdec, hresult⟩

end Sys2Proof.Machine

/-! Exceptions (60_exceptions.md): the illegal words (R274), the order of the checks (R277), the interrupt output (R281)
and the sticky bits (R282). -/

namespace Sys2Proof.Machine

/-! ### Illegal words -/

/-- The opcodes end below the two reserved values (30_encoding.md R102). -/
theorem opcode_lt (i : Instr) : (opcode i).toNat < 0xE := by cases i <;> decide

/-- Exactly the words below the two reserved values decode. -/
theorem exists_decode_iff (w : Word) : (∃ i, decode w = .ok i) ↔ w.toNat < 0xE := by
  constructor
  · rintro ⟨i, hd⟩
    rw [(decode_eq_ok_iff w i).1 hd]
    exact opcode_lt i
  · intro h
    rw [decode_eq, if_neg (by omega)]
    generalize w.toNat = op at h
    interval_cases op <;> exact ⟨_, rfl⟩

theorem exists_decode_error {w : Word} (h : 0xE ≤ w.toNat) : ∃ e, decode w = .error e := by
  cases hd : decode w with
  | error e => exact ⟨e, rfl⟩
  | ok i => exact absurd ((exists_decode_iff w).1 ⟨i, hd⟩) (Nat.not_lt.2 h)

theorem checkWord_of_decode_error {w : Word} {e : Illegal} (hd : decode w = .error e) (s : State) :
    checkWord w s = .illegal := by
  rw [checkWord, hd]

theorem completion_of_decode_error {s : State} {e : Illegal} (hd : decode s.pending = .error e) :
    completion s = .next { s with errcode := .illegal, busy := false, done := true } := by
  rw [completion, hd]
  rfl

/-- No check of a legal command reports ILLEGAL (60_exceptions.md R274). -/
theorem check_ne_illegal (i : Instr) (s : State) : check i s ≠ .illegal := by
  unfold check
  repeat' split
  all_goals decide

/-- Settles O3: the two clauses are the words that do not decode and those that do, cut at the first reserved value. -/
theorem illegalWordsEndWithIllegal : Obligations.IllegalWordsEndWithIllegal := by
  refine fun s => ⟨fun h => ?_, fun h => ?_⟩
  · obtain ⟨e, hd⟩ := exists_decode_error (w := s.pending) (by omega)
    exact ⟨checkWord_of_decode_error hd s, completion_of_decode_error hd⟩
  · obtain ⟨i, hd⟩ := (exists_decode_iff s.pending).2 h
    rw [checkWord_of_decode hd]
    exact ⟨check_ne_illegal i s, i, hd⟩

/-! ### The order of the checks -/

section CheckConditions

variable (i : Instr) (s : State)

/-- CONFIG (60_exceptions.md R271). -/
theorem configFails_iff :
    configFails i s = true ↔
      i ∉ [Instr.nop, .dbl, .xor, .pad, .mask, .zeroize] ∧ (s.keysize = 2#2 ∨ s.keysize = 3#2) := by
  have hkey : keyUsing i = true ↔ i ∉ [Instr.nop, .dbl, .xor, .pad, .mask, .zeroize] := by cases i <;> decide
  rw [configFails, Bool.and_eq_true, hkey, Bool.or_eq_true, beq_iff_eq, beq_iff_eq]

/-- SEQUENCE (60_exceptions.md R275). -/
theorem sequenceFails_iff :
    sequenceFails i s = true ↔
      (i ∈ [Instr.s2vAd, .s2vNonce] ∧ s.phase ≠ .ad) ∨ (i ∈ [Instr.s2vFinal, .sivEnc, .sivDec] ∧ s.phase = .idle) := by
  cases i <;> simp [sequenceFails]

/-- LENGTH (60_exceptions.md R276). -/
theorem lengthFails_iff :
    lengthFails i s = true ↔
      (i ∈ [Instr.cmac, .s2vAd, .s2vNonce, .s2vFinal, .ctr, .sivEnc, .sivDec] ∧ bufBytes < s.len.toNat) ∨
        (i = .xor ∧ s.len ≠ 16#32) ∨ (i = .pad ∧ 15 < s.len.toNat) := by
  have h16 : s.len = 16#32 ↔ inputLen s = 16 := BitVec.toNat_eq
  have hlen : s.len.toNat = inputLen s := rfl
  cases i <;> simp [lengthFails, hlen, h16]

/-- MALFORMED (60_exceptions.md R272). -/
theorem malformedFails_iff : malformedFails i s = true ↔ i = .sivDec ∧ s.len.toNat < 16 := by
  have hlen : s.len.toNat = inputLen s := rfl
  cases i <;> simp [malformedFails, hlen]

end CheckConditions

/-- Settles O28: a word that decodes has the check of its command, whose conditions are the four lemmas above. -/
theorem checkOrder : Obligations.CheckOrder := by
  refine fun w s => ⟨fun ⟨_, hd⟩ => checkWord_of_decode_error hd s, fun i hd => ?_⟩
  rw [checkWord_of_decode hd, check]
  simp only [configFails_iff, sequenceFails_iff, lengthFails_iff, malformedFails_iff, ite_or]

/-! ### The interrupt output -/

/-- No completion step writes IRQ_EN or a sticky bit (40_control.md R133). -/
theorem completion_control {s t : State} (h : completion s = .next t) :
    t.irqEn = s.irqEn ∧ t.cmdOvr = s.cmdOvr ∧ t.busViol = s.busViol := by
  rcases completion_cases s with ⟨i, -, -, he⟩ | ⟨-, he⟩ <;> rw [he] at h <;> cases h
  · obtain ⟨hirq, -, hovr, hviol, -⟩ := effectOf_control i s
    exact ⟨hirq, hovr, hviol⟩
  · exact ⟨rfl, rfl, rfl⟩

theorem completion_done {s t : State} (h : completion s = .next t) : t.done = true := by
  obtain ⟨u, hu, -, hdone⟩ := exists_completion_ends s
  cases hu.symm.trans h
  exact hdone

theorem irq_of_not_done {s : State} (h : s.done = false) : irq s = false := by
  rw [irq, h, Bool.and_false]

theorem irq_of_done {s : State} (h : s.done = true) : irq s = s.irqEn := by
  rw [irq, h, Bool.and_true]

theorem writeCtrl_done (w : Word) (wstrb : BitVec 4) (s : State) : (writeCtrl w wstrb s).done = s.done := by
  rw [writeCtrl_frame w wstrb s rfl]

/-- Settles O53: what raises and drops `irq` is what sets and clears DONE and IRQ_EN. -/
theorem irqFollowsDoneAndEnable : Obligations.IrqFollowsDoneAndEnable := by
  refine fun s => ⟨rfl, fun t ht => ?_, fun w hw => ?_, fun w => irq_of_not_done (issue_done s w), fun hb w => ?_, rfl⟩
  · obtain ⟨hirq, -⟩ := completion_control ht
    have hdone : t.done = true := completion_done ht
    exact ⟨hdone, (irq_of_done hdone).trans hirq⟩
  · rw [busWrite_status, clearStatus_all]
    exact irq_of_not_done (by simp [hw])
  · have hdone : (writeCtrl w 0xF#4 s).done = s.done := writeCtrl_done w 0xF#4 s
    have hirq : (writeCtrl w 0xF#4 s).irqEn = w.getLsbD 0 := writeCtrl_irqEn w 0xF#4 s
    rw [busWrite_ctrl hb, irq, hdone, hirq]
    exact ⟨rfl, rfl⟩

/-! ### The sticky bits -/

/-- The sticky bits of the first state are still set in the second. -/
def KeepsSticky (s t : State) : Prop :=
  (s.cmdOvr = true → t.cmdOvr = true) ∧ (s.busViol = true → t.busViol = true)

theorem keepsSticky_of_eq {s t : State} (hovr : t.cmdOvr = s.cmdOvr) (hviol : t.busViol = s.busViol) :
    KeepsSticky s t := ⟨hovr.trans, hviol.trans⟩

section StickyWrites

variable (w : Word) (wstrb : BitVec 4) (s : State)

/-- Of the writes at rest only that of STATUS can clear a sticky bit. -/
theorem keepsSticky_writeIdle {l : Loc} (hl : l ≠ .status) : KeepsSticky s (writeIdle l w wstrb s) := by
  cases l with
  | status => exact absurd rfl hl
  | ctrl =>
    have hframe : writeIdle .ctrl w wstrb s = writeCtrl w wstrb s := rfl
    rw [hframe, writeCtrl_frame w wstrb s rfl]
    exact keepsSticky_of_eq rfl rfl
  | key i =>
    rw [writeIdle, writeKey]
    split
    · exact keepsSticky_of_eq rfl rfl
    · exact keepsSticky_of_eq (abortChain_cmdOvr _) (abortChain_busViol _)
  | id | cmd | len | outlen | caps | iv | result | acc | ibuf | obuf | reserved => exact keepsSticky_of_eq rfl rfl

/-- While a command is in flight the other writes only set sticky bits (20_memory.md R71). -/
theorem keepsSticky_writeBusy {l : Loc} (hl : l ≠ .status) : KeepsSticky s (writeBusy l w wstrb s) := by
  rcases writeBusy_cases l w wstrb s with ⟨-, he⟩ | ⟨hstatus, -⟩ | ⟨-, -, he⟩
  · rw [he]
    exact ⟨fun _ => rfl, id⟩
  · exact absurd hstatus hl
  · rw [he]
    exact ⟨id, fun _ => rfl⟩

theorem keepsSticky_busWrite {addr : BitVec 14} (h : addr ≠ 0x00C#14) : KeepsSticky s (busWrite addr w wstrb s) := by
  have hl : locate addr.toNat ≠ .status := fun hl => h (BitVec.eq_of_toNat_eq ((locate_status_iff _).1 hl))
  rcases busWrite_cases addr w wstrb s with ⟨-, he⟩ | ⟨-, -, he⟩ | ⟨-, -, he⟩ <;> rw [he]
  · exact keepsSticky_of_eq rfl rfl
  · exact keepsSticky_writeBusy w wstrb s hl
  · exact keepsSticky_writeIdle w wstrb s hl

/-- A bit written as 0 clears nothing, strobed or not. -/
theorem getLsbD_mergeLanes_zero {b : Nat} (hb : b < 32) (h : w.getLsbD b = false) :
    (mergeLanes 0#32 w wstrb).getLsbD b = false := by
  rw [getLsbD_mergeLanes _ _ _ hb, h, BitVec.getLsbD_zero, ite_self]

theorem clearStatus_cmdOvr (h : w.getLsbD 3 = false) : (clearStatus w wstrb s).cmdOvr = s.cmdOvr := by
  simp only [clearStatus, getLsbD_mergeLanes_zero w wstrb (by omega) h, Bool.not_false, Bool.and_true]

theorem clearStatus_busViol (h : w.getLsbD 4 = false) : (clearStatus w wstrb s).busViol = s.busViol := by
  simp only [clearStatus, getLsbD_mergeLanes_zero w wstrb (by omega) h, Bool.not_false, Bool.and_true]

end StickyWrites

/-- A transaction keeps the sticky bits, or it is a write of STATUS. -/
theorem transact_sticky (tr : Transaction) (s : State) :
    KeepsSticky s (transact tr s) ∨
      (tr.kind = .write ∧ tr.addr = 0x00C#14 ∧
        (transact tr s).cmdOvr = (clearStatus tr.wdata tr.wstrb s).cmdOvr ∧
        (transact tr s).busViol = (clearStatus tr.wdata tr.wstrb s).busViol) := by
  cases hk : tr.kind with
  | read =>
    rw [transact_of_read hk]
    exact .inl (keepsSticky_of_eq rfl rfl)
  | write =>
    rw [transact_of_write hk]
    by_cases haddr : tr.addr = 0x00C#14
    · rw [haddr, busWrite_status]
      exact .inr ⟨rfl, rfl, rfl, rfl⟩
    · exact .inl (keepsSticky_busWrite tr.wdata tr.wstrb s haddr)

/-- A step that is no RESET keeps the sticky bits, or it is a write of STATUS. -/
theorem step_sticky {s t : State} (h : step s = .next t) (hreset : ∀ rest, s.events ≠ .reset :: rest) :
    KeepsSticky s t ∨
      ∃ tr rest, s.events = .host tr :: rest ∧ tr.kind = .write ∧ tr.addr = 0x00C#14 ∧
        t.cmdOvr = (clearStatus tr.wdata tr.wstrb s).cmdOvr ∧
        t.busViol = (clearStatus tr.wdata tr.wstrb s).busViol := by
  rcases step_cases h with ⟨-, -, hc⟩ | ⟨-, -, rfl⟩ | ⟨tr, rest, hev, rfl⟩ | ⟨rest, -, -, hc⟩ | ⟨rest, -, -, rfl⟩ |
    ⟨rest, hev, -⟩
  · obtain ⟨-, hovr, hviol⟩ := completion_control hc
    exact .inl (keepsSticky_of_eq hovr hviol)
  · exact .inl (keepsSticky_of_eq rfl rfl)
  · rcases transact_sticky tr { s with events := rest } with hkeep | ⟨hkind, haddr, hovr, hviol⟩
    · exact .inl hkeep
    · exact .inr ⟨tr, rest, hev, hkind, haddr, hovr, hviol⟩
  · obtain ⟨-, hovr, hviol⟩ := completion_control hc
    exact .inl (keepsSticky_of_eq hovr hviol)
  · exact .inl (keepsSticky_of_eq rfl rfl)
  · exact absurd hev (hreset rest)

/-- Settles O54: a step keeps both bits, or it is a write of STATUS (`step_sticky`), which clears no bit written as 0. -/
theorem stickyBitsStick : Obligations.StickyBitsStick := by
  intro s t h hreset
  rcases step_sticky h hreset with ⟨hovr, hviol⟩ | ⟨tr, rest, hev, hkind, haddr, hovr, hviol⟩
  · exact ⟨fun _ => hovr, fun _ => hviol⟩
  · refine ⟨fun hclear hset => ?_, fun hclear hset => ?_⟩
    · rw [hovr, clearStatus_cmdOvr _ _ _ (hclear tr rest hev hkind haddr), hset]
    · rw [hviol, clearStatus_busViol _ _ _ (hclear tr rest hev hkind haddr), hset]

end Sys2Proof.Machine

/-! The reset (70_reset_and_hazards.md R310): what a RESET event answers, and what the reset state shows. -/

namespace Sys2Proof.Machine

/-- RESET answers the reset state in every state; the schedule's rest stays (log entry 15). -/
theorem step_of_reset {s : State} {rest : List Event} (h : s.events = .reset :: rest) :
    step s = .next { State.reset with events := rest } := by
  simp only [step, h, resetEvent]

theorem ctrlWord_reset : ctrlWord State.reset = 0#32 := by decide

theorem statusWord_reset : statusWord State.reset = 0#32 := by decide

theorem irq_reset : irq State.reset = false := irq_of_not_done rfl

/-- Settles O55: the step answers the reset state (`step_of_reset`), whose control words are zero and whose buffers list
no byte; the schedule it keeps is no part of what the block shows. -/
theorem resetClearsEverything : Obligations.ResetClearsEverything := by
  intro s rest h
  exact ⟨_, step_of_reset h, ctrlWord_reset, statusWord_reset, rfl, rfl, rfl, rfl, rfl, rfl, rfl, rfl, Memory.read_nil,
    Memory.read_nil, rfl, irq_reset, rfl⟩

end Sys2Proof.Machine
